-- ==== Sys2Proof/Word.lean ====
section
/-! DEFINITION. The value types of 10_state.md section 1. A sequence element `s[i]` is bit `i` of its
vector, least significant first (20_memory.md R30, decision D3). -/

namespace Sys2Proof

/-- R10: one wire, one Boolean. -/
abbrev Bit := Bool

/-- R11: an ordered sequence of exactly 4 bits; `d[k]` is bit `k`. -/
abbrev Nibble := BitVec 4

/-- R12: an ordered sequence of exactly 7 bits, positions 0 to 6; `c[i]` is bit `i`. -/
abbrev Codeword := BitVec 7

/-- R13: an integer in 0..7 on three wires. -/
abbrev Syndrome := BitVec 3

/-- R38: the 11-bit request word. -/
abbrev Request := BitVec 11

/-- R29(c): a byte of the host's stream driver, `B7` the most significant bit. -/
abbrev Byte := BitVec 8

end Sys2Proof
end

