-- ==== Sys2Proof/Config.lean ====
section
/-! DEFINITION. The fixed parameters of 00_scope.md R5, and the values the spec leaves free. -/

namespace Sys2Proof.Config

/-- `K` of R5: bits in a Nibble. -/
abbrev nibbleBits : Nat := 4

/-- `N` of R5: bits in a Codeword; the length all four units are fixed at (R6). -/
abbrev codewordBits : Nat := 7

/-- `P` of R5: number of parity bits. -/
abbrev parityBits : Nat := 3

/-- 30_encoding.md R43, 40_parity.md R53: `par_out` of PARITY with exponent 3, "a free Bit drawn anew
at every such evaluation". The argument counts the draws; nothing else is known of the value
(log entry 4). -/
opaque freeParity : Nat → Bit

/-- 20_memory.md R35, 93_implementation_defined.md U6: which of the concurrent calls that write one element
of a shared buffer wins it. The arguments count the races and name the element; nothing else is known of
the value (log entry 7). -/
opaque raceWinner : Nat → Nat → Nat

end Sys2Proof.Config
end

