-- ==== Sys2Proof/Syntax.lean ====
section
/-! DEFINITION. The operations of 30_encoding.md R40: one constructor per row of the table. -/

namespace Sys2Proof

/-- A request as the block understands it (R40, R46). Ignored bits (R42) are not part of it. -/
inductive Instr where
  /-- `PARITY p, c` (R50); `exp` is the exponent field as it stands, 3 being reserved (R43). -/
  | parity (exp : BitVec 2) (c : Codeword)
  /-- `SYNDROME c` (R55). -/
  | syndrome (c : Codeword)
  /-- `ENCODE d` (R60). -/
  | encode (d : Nibble)
  /-- `DECODE c` (R66). -/
  | decode (c : Codeword)
  deriving DecidableEq, Repr

/-- The mnemonic of the operation table (R40). -/
def Instr.mnemonic : Instr → String
  | .parity _ _ => "PARITY"
  | .syndrome _ => "SYNDROME"
  | .encode _ => "ENCODE"
  | .decode _ => "DECODE"

end Sys2Proof
end

