-- ==== Sys2Proof/WellFormed.lean ====
section
/-! DEFINITION. What the host owes the block at a request (70_reset_and_hazards.md R112). The operand
sizes are enforced by the types, as the port widths enforce them in hardware (R112(a), 20_memory.md
R32); the one check left is the exponent of PARITY (R112(b), R113). A request that fails it still runs
(R43); see log entry 5. -/

namespace Sys2Proof

/-- R112(b): "for PARITY, an exponent in {0, 1, 2}"; (c) "nothing else". -/
def Instr.wellFormed : Instr → Bool
  | .parity exp _ => exp != 3#2
  | .syndrome _ => true
  | .encode _ => true
  | .decode _ => true

end Sys2Proof
end

