-- ==== Sys2Proof/Decode.lean ====
section
/-! DEFINITION. The request format of 30_encoding.md: the fields of R38, the decoding procedure of
R45, the operation table of R40, and the encoder written from the same format. -/

namespace Sys2Proof

/-! ### The fields of a request (R38) -/

/-- `op = req[10:9]`. -/
def fieldOp (r : Request) : BitVec 2 := r.extractLsb' 9 2

/-- `exp = req[8:7]`. -/
def fieldExp (r : Request) : BitVec 2 := r.extractLsb' 7 2

/-- `arg = req[6:0]`, a Codeword operand (R39(a)). -/
def fieldArg (r : Request) : Codeword := r.extractLsb' 0 7

/-- `arg[3:0]`, a Nibble operand (R39(b)). -/
def fieldNibble (r : Request) : Nibble := r.extractLsb' 0 4

/-- `req = op * 512 + exp * 128 + arg` (R38): each field on its own wires. -/
def packRequest (op exp : BitVec 2) (arg : Codeword) : Request :=
  op.setWidth 11 <<< 9 ||| exp.setWidth 11 <<< 7 ||| arg.setWidth 11

/-! ### Decoding (R45) and encoding -/

/-- R45: total on every 11-bit value; `op` is selected on its two wires `req[10]`, `req[9]`. Ignored
bits (R42) are not read. -/
def decodeReq (r : Request) : Instr :=
  match r[10], r[9] with
  | false, false => .parity (fieldExp r) (fieldArg r)
  | false, true => .syndrome (fieldArg r)
  | true, false => .encode (fieldNibble r)
  | true, true => .decode (fieldArg r)

/-- R40, R46: the request of an operation, its ignored bits driven 0 (R42). -/
def encodeReq : Instr → Request
  | .parity exp c => packRequest 0#2 exp c
  | .syndrome c => packRequest 1#2 0#2 c
  | .encode d => packRequest 2#2 0#2 (d.setWidth 7)
  | .decode c => packRequest 3#2 0#2 c

/-! ### The operation table (R40) -/

/-- A row of R40: a request `r` selects it when `r & mask = pattern`. -/
structure OpRow where
  mnemonic : String
  pattern : Request
  mask : Request
  deriving DecidableEq, Repr

/-- R40's four rows, and no other. -/
def opTable : List OpRow :=
  [⟨"PARITY", 0x000#11, 0x600#11⟩, ⟨"SYNDROME", 0x200#11, 0x600#11⟩,
   ⟨"ENCODE", 0x400#11, 0x600#11⟩, ⟨"DECODE", 0x600#11, 0x600#11⟩]

/-- R40: "A request `r` selects the row with `r & mask = match`." -/
def OpRow.selects (row : OpRow) (r : Request) : Bool := r &&& row.mask == row.pattern

/-! ### Words wider than a request -/

/-- Why a word is no request. -/
inductive DecodeError where
  /-- The word needs more than the 11 request wires (R38); safe, since the block has no such wire
  (log entry 3). -/
  | widerThanRequest (w : Nat)
  deriving DecidableEq, Repr

/-- The request wires carrying the number `w` (R38); bits above wire 10 do not exist and are lost. -/
def requestOfNat (w : Nat) : Request := BitVec.ofNat 11 w

/-- Decoding of a number of any size: rejected by name where it does not fit the request wires. -/
def decodeWord (w : Nat) : Except DecodeError Instr :=
  if w < 2 ^ 11 then .ok (decodeReq (requestOfNat w)) else .error (.widerThanRequest w)

/-- The bits of a table word: `nbits` of them, every higher bit 0. -/
def tableWord (nbits w : Nat) : Nat := w % 2 ^ nbits

/-- The instruction the decoder reads from an operation-table word of `nbits` bits. -/
def decodeTableWord (nbits w : Nat) : Option Instr :=
  match decodeWord (tableWord nbits w) with
  | .ok i => some i
  | .error _ => none

end Sys2Proof
end

