-- ==== Sys2Proof/Machine/State.lean ====
section
/-! DEFINITION. The state: the interface signals of 10_state.md R19 and the model's own count of free
draws. The block itself holds nothing (R15 to R18, R21): the ports are rewritten whole from the request at
every drive of the wires and at every step, and nothing reads them back (log entry 1). -/

namespace Sys2Proof.Machine

/-- The four result ports (R19, R41), under the spec's names `par_out`, `syn_out`, `cw_out`, `nib_out`. -/
structure Response where
  parOut : Bit
  synOut : Syndrome
  cwOut : Codeword
  nibOut : Nibble
  deriving DecidableEq, Repr

/-- Every port at 0: what R41 gives the ports an operation does not produce. -/
def Response.zero : Response := ⟨false, 0#3, 0#7, 0#4⟩

/-- The wires at the block's boundary, and the count of free Bits drawn so far.

`req` is the host's (R19: driven, and held for as long as the response is to stand, R120). `out` is
what the ports carry, the response to `req`; it is no register, since it does not outlive the request it
answers (`State.driveReq`). `draws` is the model's own (R43, log entry 4). -/
structure State where
  req : Request
  out : Response
  draws : Nat
  deriving DecidableEq, Repr

/-- 60_exceptions.md R96: "The block raises no exception, trap or fault, for any request". There is no
constructor: nobody raises a fault. -/
inductive Fault
  deriving DecidableEq, Repr

/-- Why a request gets no meaning. -/
inductive Refusal where
  /-- Raised by `exec` for an operation with no meaning yet; safe. No arm of `exec` raises it. -/
  | notModelled (mnemonic : String)
  deriving DecidableEq, Repr

/-- 10_state.md R23: there is no reset and no reset value. DESIGN CHOICE (log entry 2): the model starts
with `req` driven 0x000, and the ports at the R41 response to it. -/
def State.reset : State := { req := 0#11, out := Response.zero, draws := 0 }

end Sys2Proof.Machine
end

