-- ==== Sys2Proof/Machine/Operands.lean ====
section
/-! DEFINITION. Positions, parity groups and the two orders in which bits travel: the operand forms of
30_encoding.md R39 and the bit-position conventions of 20_memory.md section 2. -/

namespace Sys2Proof.Machine

/-! ### Exponents, masks and groups -/

/-- R39(c): the exponent field as a parity exponent; `none` for the reserved value 3 (R43). -/
def exponent? (exp : BitVec 2) : Option (Fin 3) :=
  if h : exp.toNat < 3 then some ⟨exp.toNat, h⟩ else none

/-- R39(c): `mask = 2^p`. -/
def mask (p : Nat) : Nat := 2 ^ p

/-- R5 `PARPOS[p] = 2^p - 1`: the 0-based parity position of exponent `p`. -/
def parityPos (p : Nat) : Nat := 2 ^ p - 1

/-- R5 `DATAPOS`: the 0-based data positions, in order. -/
def dataPos : List Nat := [2, 4, 5, 6]

/-- R51: index `i` belongs to the parity group of `p` when `(i+1) & 2^p != 0`. -/
def inGroup (p i : Nat) : Bool := (i + 1) &&& mask p != 0

/-- R52: `G_p = { i in 0..6 : (i+1) & 2^p != 0 }`. -/
def group (p : Fin 3) : List Nat := (List.range Config.codewordBits).filter (inGroup p)

/-! ### Sequences and vectors -/

/-- `s[i] <- b` (00_scope.md section 4): element `i` replaced, all others unchanged. -/
def setBit {w : Nat} (v : BitVec w) (i : Nat) (b : Bit) : BitVec w :=
  (v &&& ~~~ BitVec.twoPow w i) ||| (if b then BitVec.twoPow w i else 0#w)

/-- The Nibble `[d0, d1, d2, d3]`, element `k` on wire `k` (R30). -/
def nibbleOf (d0 d1 d2 d3 : Bit) : Nibble := BitVec.ofBoolListLE [d0, d1, d2, d3]

/-- The Codeword `[c0, ..., c6]`, element `i` on wire `i` (R30). -/
def codewordOf (c0 c1 c2 c3 c4 c5 c6 : Bit) : Codeword :=
  BitVec.ofBoolListLE [c0, c1, c2, c3, c4, c5, c6]

/-- A Codeword as a list, element 0 first (R29(a)). -/
def bitsOfCodeword (cw : Codeword) : List Bit :=
  [cw[0], cw[1], cw[2], cw[3], cw[4], cw[5], cw[6]]

/-- A Nibble as a list, element 0 first. -/
def bitsOfNibble (d : Nibble) : List Bit := [d[0], d[1], d[2], d[3]]

/-! ### The fixed data placement (R29(b)) -/

/-- R61: a zero sequence with the four data bits written, in order, at positions 2, 4, 5, 6. -/
def placeData (d : Nibble) : Codeword :=
  (dataPos.zip (bitsOfNibble d)).foldl (fun cw placed => setBit cw placed.1 placed.2) 0#7

/-- R29(b), R67 step 3: the bits at positions 2, 4, 5, 6, in that order. -/
def extractData (cw : Codeword) : Nibble := nibbleOf cw[2] cw[4] cw[5] cw[6]

/-- R29(c): high nibble of a byte, its most significant bit as element 0. -/
def highNibble (b : Byte) : Nibble := nibbleOf b[7] b[6] b[5] b[4]

/-- R29(c): low nibble of a byte, its most significant bit as element 0. -/
def lowNibble (b : Byte) : Nibble := nibbleOf b[3] b[2] b[1] b[0]

/-- The bits of a byte, most significant first (R29(c)). -/
def bitsOfByte (b : Byte) : List Bit := [b[7], b[6], b[5], b[4], b[3], b[2], b[1], b[0]]

end Sys2Proof.Machine
end

