-- ==== Sys2Proof/Machine/Ops.lean ====
section
/-! DEFINITION. The shared operations: setting the request wires, driving the result ports, and the XOR
over a set of positions. There is no register file, no memory and no exception entry or return to write
here (10_state.md R15, 20_memory.md R25, 60_exceptions.md R96, R105). -/

namespace Sys2Proof.Machine

/-- The request wires alone, set to `r`. What the host does to the block is `State.driveReq`, which lets
the ports follow. -/
def State.setReq (s : State) (r : Request) : State := { s with req := r }

/-- The block drives its four result ports (R41). -/
def State.driveOut (s : State) (o : Response) : State := { s with out := o }

/-- R43: the next free Bit. -/
def State.freeBit (s : State) : Bit := Config.freeParity s.draws

/-- R43: "drawn anew at every such evaluation": the draw is used up. -/
def State.countDraw (s : State) : State := { s with draws := s.draws + 1 }

/-- `XOR{ s[i] : i in S }` (00_scope.md section 4), 0 when `S` is empty (R81). -/
def xorOver (c : Codeword) (is : List Nat) : Bit := is.foldr (fun i b => c.getLsbD i ^^ b) false

/-- R52: `parity(c, p) = XOR{ c[i] : i in G_p }`. -/
def parity (c : Codeword) (p : Fin 3) : Bit := xorOver c (group p)

/-- R14: a codeword is valid when each of its three parity groups XORs to 0. -/
def valid (c : Codeword) : Bool := !parity c 0 && !parity c 1 && !parity c 2

end Sys2Proof.Machine
end

