-- ==== Sys2Proof/Machine/Flags.lean ====
section
/-! DEFINITION. There are no flags, condition codes or predicates (10_state.md R17): no operation
computes one, and State holds none. What the host can read off a response instead is here. -/

namespace Sys2Proof.Machine

/-- R17, 43_decoder.md R71, 70_reset_and_hazards.md R118: from a response to DECODE the host learns that
a bit was changed by reading `syn_out`. Information for the host, not a flag of the block. -/
def Response.corrected (o : Response) : Bool := o.synOut != 0#3

end Sys2Proof.Machine
end

