-- ==== Sys2Proof/Machine/SyndromeCalculator.lean ====
section
/-! DEFINITION. SYNDROME (41_syndrome.md): the multi-bit parity check combiner and its operation. -/

namespace Sys2Proof.Machine

/-- R56 at `N = 7` (R57): an accumulator that starts at 0; for `p` = 0, 1, 2, "if the result is 1, sets
bit p of the accumulator". -/
def syndrome (c : Codeword) : Syndrome :=
  [0, 1, 2].foldl (fun acc (p : Fin 3) => if parity c p then setBit acc p true else acc) 0#3

/-- R55: `syn_out <- syndrome(c)`, the other ports 0. -/
def execSyndrome (c : Codeword) (s : State) : Host.Outcome State Fault Refusal :=
  .next (s.driveOut { Response.zero with synOut := syndrome c })

end Sys2Proof.Machine
end

