-- ==== Sys2Proof/Machine/NibbleDecoder.lean ====
section
/-! DEFINITION. DECODE (43_decoder.md): error locator, single-bit corrector, extractor, and its
operation. -/

namespace Sys2Proof.Machine

/-- R67 step 2: "If `s != 0` and `s - 1 < 7`, flip (complement) the bit at 0-based index `s - 1`." The
guard is kept as the source has it (R68); `s != 0` is tested first. -/
def correct (c : Codeword) (s : Syndrome) : Codeword :=
  if s.toNat ≠ 0 ∧ s.toNat - 1 < Config.codewordBits then
    setBit c (s.toNat - 1) (!c.getLsbD (s.toNat - 1))
  else c

/-- R67: `(d, c', s)`; the syndrome is of the operand, the extraction reads the corrected sequence. -/
def decodeNibble (c : Codeword) : Nibble × Codeword × Syndrome :=
  let s := syndrome c
  let c' := correct c s
  (extractData c', c', s)

/-- R66: `nib_out <- d`, `cw_out <- c'`, `syn_out <- s`, `par_out <- 0`. The operand is not changed
(R69). -/
def execDecode (c : Codeword) (s : State) : Host.Outcome State Fault Refusal :=
  let r := decodeNibble c
  .next (s.driveOut { Response.zero with nibOut := r.1, cwOut := r.2.1, synOut := r.2.2 })

end Sys2Proof.Machine
end

