-- ==== Sys2Proof/Machine/NibbleEncoder.lean ====
section
/-! DEFINITION. ENCODE (42_encoder.md): the 4-to-7 bit expander with parity fill, and its operation. -/

namespace Sys2Proof.Machine

/-- R61: for one exponent, `parity` of the current content stored at the parity position `2^p - 1`. -/
def fillParity (c : Codeword) (p : Fin 3) : Codeword := setBit c (parityPos p) (parity c p)

/-- The parity fill in a given order of exponents (R63). -/
def fillParities (order : List (Fin 3)) (c : Codeword) : Codeword := order.foldl fillParity c

/-- R61: data placed in a zero sequence, then the parity bits filled for `p` = 0, 1, 2. -/
def encodeNibble (d : Nibble) : Codeword := fillParities [0, 1, 2] (placeData d)

/-- R60: `cw_out <- encode(d)`, the other ports 0. -/
def execEncode (d : Nibble) (s : State) : Host.Outcome State Fault Refusal :=
  .next (s.driveOut { Response.zero with cwOut := encodeNibble d })

end Sys2Proof.Machine
end

