-- ==== Sys2Proof/Machine/ParityCalculator.lean ====
section
/-! DEFINITION. PARITY (40_parity.md): the parity calculator's operation. -/

namespace Sys2Proof.Machine

/-- R50: `par_out <- parity(c, p)` for `p` in 0..2, the other ports 0. R53, R43: with the reserved
exponent 3 no exception is raised, `par_out` is a free Bit drawn anew and the other ports are 0. -/
def execParity (exp : BitVec 2) (c : Codeword) (s : State) : Host.Outcome State Fault Refusal :=
  match exponent? exp with
  | some p => .next (s.driveOut { Response.zero with parOut := parity c p })
  | none => .next (s.countDraw.driveOut { Response.zero with parOut := s.freeBit })

end Sys2Proof.Machine
end

