-- ==== Sys2Proof/Machine/Dispatch.lean ====
section
/-! DEFINITION. One arm per operation of 30_encoding.md R40. -/

namespace Sys2Proof.Machine

/-- The response of R41, driven on the ports. -/
def exec (i : Instr) (s : State) : Host.Outcome State Fault Refusal :=
  match i with
  | .parity exp c => Sys2Proof.Machine.execParity exp c s
  | .syndrome c => Sys2Proof.Machine.execSyndrome c s
  | .encode d => Sys2Proof.Machine.execEncode d s
  | .decode c => Sys2Proof.Machine.execDecode c s

end Sys2Proof.Machine
end

