-- ==== Sys2Proof/Machine/Ports.lean ====
section
/-! DEFINITION. The host's hand on the request wires (10_state.md R19, R22): combinational logic, so the
ports follow at once (decision D1). -/

namespace Sys2Proof.Machine

/-- The state an outcome answers, or `d` where it answers none. -/
def nextOr (d : State) : Host.Outcome State Fault Refusal → State
  | .next t => t
  | .fault _ => d
  | .refused _ => d

/-- The host drives the request wires. R19: "Every output is, at every instant, the function of `req`", and
the signals "hold nothing when `req` changes"; R110: "from the first moment `req` carries a value they carry
the response" to it. So the ports carry the response to `r` at once, and nothing is left of the response
before. With the reserved request this is an evaluation like any other and draws a free Bit (R43). -/
def State.driveReq (s : State) (r : Request) : State :=
  nextOr (s.setReq r) (exec (decodeReq r) (s.setReq r))

end Sys2Proof.Machine
end

