-- ==== Sys2Proof/Machine/Step.lean ====
section
/-! DEFINITION. One step: one settled evaluation of the request on the wires. There is no fetch and no
program counter (10_state.md R16, 20_memory.md R37). -/

namespace Sys2Proof.Machine

/-- R19, R45: evaluate the request that stands on `req` (once more, R33: "idempotent"), and drive its
response. `req` stays as the host holds it. -/
def step (s : State) : Host.Outcome State Fault Refusal := exec (decodeReq s.req) s

/-- The host presents a table word's request to the block (log entry 3); the ports follow. -/
def State.withFetchWord (s : State) (nbits w : Nat) : State :=
  s.driveReq (requestOfNat (tableWord nbits w))

end Sys2Proof.Machine
end

