-- ==== Sys2Proof/Machine/Channel.lean ====
section
/-! DEFINITION. The channel of 10_state.md R22: an environment agent that may flip bits between encode
and decode. The block never sees the error sequence. -/

namespace Sys2Proof.Machine

/-- R22: `r[i] = c[i] ^ e[i]`. -/
def channel (c e : Codeword) : Codeword := c ^^^ e

/-- How many positions an error sequence flips. -/
def weight (e : Codeword) : Nat := (List.range Config.codewordBits).countP e.getLsbD

/-- Hamming distance: in how many positions two codewords differ (45_properties.md R89). -/
def distance (a b : Codeword) : Nat := weight (a ^^^ b)

/-- The error sequence that flips exactly the bit at 0-based index `i` (R86, R87). -/
def flipAt (i : Nat) : Codeword := BitVec.twoPow 7 i

/-- The channel on a coded stream, position by position. -/
def channelBits (bits errs : List Bit) : List Bit := List.zipWith (· ^^ ·) bits errs

end Sys2Proof.Machine
end

