-- ==== Sys2Proof/Machine/SourceText.lean ====
section
/-! DEFINITION. The source's length-generic text of the parity and syndrome calculators (40_parity.md
R51, 41_syndrome.md R56). This hardware has length 7 only (00_scope.md R6), and any other length is
refused (93_implementation_defined.md U4; log entry 6). The block's own operations use R52 and R57. -/

namespace Sys2Proof.Machine

/-- R51: "the XOR of every bit at 0-based index i, for i ranging from `mask-1` to the sequence length
minus 1, such that `(i+1) & mask` is not 0". -/
def parityN (bits : List Bit) (p : Nat) : Bit :=
  ((List.range' (mask p - 1) (bits.length - (mask p - 1))).filter (inGroup p)).foldl
    (fun r i => r ^^ bits.getD i false) false

/-- R56: the loop "while `2^p <= length`", with the guard that skips an exponent whose parity position
would be past the end; `fuel` bounds the exponents tried. -/
def syndromeLoop (bits : List Bit) : (fuel p acc : Nat) → Nat
  | 0, _, acc => acc
  | fuel + 1, p, acc =>
    if mask p ≤ bits.length then
      syndromeLoop bits fuel (p + 1)
        (if bits.length ≤ parityPos p then acc
         else if parityN bits p then acc + 2 ^ p else acc)
    else acc

/-- R56: the accumulator starts at 0 and the exponent at 0. -/
def syndromeN (bits : List Bit) : Nat := syndromeLoop bits (bits.length + 1) 0 0

/-- The source's `parityCheck`, refused at every length but 7 (U4) and where the mask is larger than
the sequence (R51 "Undefined/caller-error", U1). -/
def sourceParityCheck (bits : List Bit) (p : Nat) : Option Bit :=
  if bits.length = Config.codewordBits ∧ mask p ≤ bits.length then some (parityN bits p) else none

/-- The source's `syndrome`, refused at every length but 7 (U4). -/
def sourceSyndrome (bits : List Bit) : Option Nat :=
  if bits.length = Config.codewordBits then some (syndromeN bits) else none

end Sys2Proof.Machine
end

