-- ==== Sys2Proof/Machine/HostPort.lean ====
section
/-! DEFINITION. The host's side of the ports (10_state.md R19, R22): driving a request, sampling the
response, and the four source functions as a caller sees them (30_encoding.md R46). -/

namespace Sys2Proof.Machine

/-- The next state of an outcome, changed by `f`; a fault or refusal stays as it is. -/
def mapNext {σ τ φ ρ : Type} (f : σ → τ) : Host.Outcome σ φ ρ → Host.Outcome τ φ ρ
  | .next s => .next (f s)
  | .fault r => .fault r
  | .refused r => .refused r

/-- One request issued to the block: the wires driven, and a step while they are held. -/
def issue (r : Request) (s : State) : Host.Outcome State Fault Refusal := step (s.driveReq r)

/-- The response the host samples for one request; `none` if the block did not answer. -/
def respond (r : Request) (s : State) : Option Response :=
  match issue r s with
  | .next t => some t.out
  | .fault _ => none
  | .refused _ => none

/-- `parityCheck(codewordBits, exponent) -> Bit`, read on `par_out` (R46). -/
def hostParity (exp : BitVec 2) (c : Codeword) (s : State) : Option Bit :=
  (respond (encodeReq (.parity exp c)) s).map Response.parOut

/-- `syndrome(codewordBits) -> integer`, read on `syn_out` (R46). -/
def hostSyndrome (c : Codeword) (s : State) : Option Syndrome :=
  (respond (encodeReq (.syndrome c)) s).map Response.synOut

/-- `encodeNibble(dataBits[4]) -> codewordBits[7]`, read on `cw_out` (R46). -/
def hostEncode (d : Nibble) (s : State) : Option Codeword :=
  (respond (encodeReq (.encode d)) s).map Response.cwOut

/-- `decodeNibble(codewordBits[7]) -> dataBits[4]` with the corrected codeword and the syndrome of the
operand beside it (R41, R69). A host that wants the source's in-place correction keeps the second. -/
def hostDecode (c : Codeword) (s : State) : Option (Nibble × Codeword × Syndrome) :=
  (respond (encodeReq (.decode c)) s).map (fun o => (o.nibOut, o.cwOut, o.synOut))

/-- A list of requests issued one after another to one block (10_state.md R16), with the responses in
order. -/
def serve : List Request → State → Host.Outcome (State × List Response) Fault Refusal
  | [], s => .next (s, [])
  | r :: rs, s =>
    match issue r s with
    | .next t => mapNext (fun u => (u.1, t.out :: u.2)) (serve rs t)
    | .fault f => .fault f
    | .refused f => .refused f

/-- 60_exceptions.md R108: several copies of the block, each given one request. -/
def serveEach (copies : List State) (rs : List Request) : Option (List Response) :=
  (List.zipWith respond rs copies).mapM id

/-- 70_reset_and_hazards.md R115: a host that rebuilds ENCODE from PARITY requests presents the placed
data, with parity positions 0, to each of the three requests and stores the three answers. -/
def hostEncodeFromParity (d : Nibble) (s : State) : Option Codeword := do
  let t := placeData d
  let q0 ← hostParity 0#2 t s
  let q1 ← hostParity 1#2 t s
  let q2 ← hostParity 2#2 t s
  return setBit (setBit (setBit t (parityPos 0) q0) (parityPos 1) q1) (parityPos 2) q2

end Sys2Proof.Machine
end

