-- ==== Sys2Proof/Machine/StreamDriver.lean ====
section
/-! DEFINITION. The stream driver (44_stream_driver.md): host software that issues ENCODE and DECODE
requests to the block. Not part of the hardware (R73); no driver call keeps a value between calls. -/

namespace Sys2Proof.Machine

/-! ### Cutting streams into groups (20_memory.md R32, R77) -/

/-- R74: consecutive groups of 4 bits as Nibbles; a trailing group shorter than 4 is dropped (R77). -/
def nibblesOf : List Bit → List Nibble
  | b0 :: b1 :: b2 :: b3 :: rest => nibbleOf b0 b1 b2 b3 :: nibblesOf rest
  | _ => []

/-- R75: consecutive groups of 7 bits as Codewords; a trailing group shorter than 7 is dropped (R77). -/
def codewordsOf : List Bit → List Codeword
  | c0 :: c1 :: c2 :: c3 :: c4 :: c5 :: c6 :: rest =>
    codewordOf c0 c1 c2 c3 c4 c5 c6 :: codewordsOf rest
  | _ => []

/-! ### Expansion into requests (30_encoding.md R47) -/

/-- ENCODEBITS: one ENCODE request per group of 4 bits (R74). -/
def encodeBitsRequests (bits : List Bit) : List Request :=
  (nibblesOf bits).map (fun d => encodeReq (.encode d))

/-- DECODEBITS: one DECODE request per group of 7 bits (R75). -/
def decodeBitsRequests (coded : List Bit) : List Request :=
  (codewordsOf coded).map (fun c => encodeReq (.decode c))

/-- ENCODEBYTES: for each byte one ENCODE request for its high and then one for its low nibble (R76). -/
def encodeBytesRequests (bytes : List Byte) : List Request :=
  bytes.flatMap (fun b => [encodeReq (.encode (highNibble b)), encodeReq (.encode (lowNibble b))])

/-! ### The three stream operations (R78) -/

/-- A stream call with its operand. -/
inductive StreamOp where
  /-- ENCODEBITS (R74). -/
  | encodeBits (bits : List Bit)
  /-- DECODEBITS (R75). -/
  | decodeBits (coded : List Bit)
  /-- ENCODEBYTES (R76). -/
  | encodeBytes (bytes : List Byte)
  deriving DecidableEq, Repr

/-- The requests a stream call expands into, one per group (R47). -/
def StreamOp.requests : StreamOp → List Request
  | .encodeBits bits => encodeBitsRequests bits
  | .decodeBits coded => decodeBitsRequests coded
  | .encodeBytes bytes => encodeBytesRequests bytes

/-- What is appended per group: "append its 7 output bits, in order" (R74, R76), "append its 4 output
bits" (R75). -/
def StreamOp.read : StreamOp → Response → List Bit
  | .encodeBits _, o => bitsOfCodeword o.cwOut
  | .decodeBits _, o => bitsOfNibble o.nibOut
  | .encodeBytes _, o => bitsOfCodeword o.cwOut

/-- Output bits per group. -/
def StreamOp.width : StreamOp → Nat
  | .encodeBits _ => Config.codewordBits
  | .decodeBits _ => Config.nibbleBits
  | .encodeBytes _ => Config.codewordBits

/-- The exact size of the output (R78, R79). -/
def StreamOp.size (op : StreamOp) : Nat := op.width * op.requests.length

/-! ### Running a stream on the block -/

/-- The requests issued one after another, the bits read from the responses appended in order. -/
def streamOn (op : StreamOp) (s : State) : Host.Outcome (State × List Bit) Fault Refusal :=
  mapNext (fun u => (u.1, u.2.flatMap op.read)) (serve op.requests s)

/-- ENCODEBITS (R74). -/
def encodeBitsOn (bits : List Bit) (s : State) : Host.Outcome (State × List Bit) Fault Refusal :=
  streamOn (.encodeBits bits) s

/-- DECODEBITS (R75). The caller's coded bits are not changed. -/
def decodeBitsOn (coded : List Bit) (s : State) : Host.Outcome (State × List Bit) Fault Refusal :=
  streamOn (.decodeBits coded) s

/-- ENCODEBYTES (R76). -/
def encodeBytesOn (bytes : List Byte) (s : State) : Host.Outcome (State × List Bit) Fault Refusal :=
  streamOn (.encodeBytes bytes) s

/-! ### Caller-owned output buffers (R79) -/

/-- What the host's software must not do with its own buffers. Not a fault of the block (R97). -/
inductive DriverFault where
  /-- Raised by a stream call whose output buffer is smaller than the required size (R79, R99): the call
  fails fast, with no partial result; safe. -/
  | bufferTooSmall
  deriving DecidableEq, Repr

/-- A buffer with `xs` written from index `at_` on. -/
def place (buf : List Bit) (at_ : Nat) (xs : List Bit) : List Bit :=
  buf.take at_ ++ xs ++ buf.drop (at_ + xs.length)

/-- R79: a stream call into a caller-supplied buffer. R79 asks for a fault where the buffer is too small,
and never a partial result.

DESIGN CHOICE (log entry 7): the buffer is checked before any request is issued. DESIGN CHOICE (log
entry 10): a buffer LARGER than the exact size of R78 is accepted, the result is written from index 0 on and
the rest of the buffer is left as it was; the spec speaks only of exact and of smaller buffers. -/
def streamInto (op : StreamOp) (buf : List Bit) (s : State) :
    Except DriverFault (Host.Outcome (State × List Bit) Fault Refusal) :=
  if buf.length < op.size then .error .bufferTooSmall
  else .ok (mapNext (fun u => (u.1, place buf 0 u.2)) (streamOn op s))

/-! ### Groups in any order, each result at its own place (R80) -/

/-- The groups named by `order` evaluated in that order, group `g` landing at output bits `w*g` to
`w*g + w-1` (R80). A number that names no group of the stream issues nothing (R74 to R76: the loops run
over the groups there are). -/
def fillGroups (op : StreamOp) : List Nat → State → List Bit →
    Host.Outcome (State × List Bit) Fault Refusal
  | [], s, buf => .next (s, buf)
  | g :: order, s, buf =>
    match op.requests[g]? with
    | none => fillGroups op order s buf
    | some r =>
      match issue r s with
      | .next t => fillGroups op order t (place buf (op.width * g) (op.read t.out))
      | .fault f => .fault f
      | .refused f => .refused f

/-- R80 into a caller-supplied buffer, `order` being an order of the stream's groups. A too-small buffer
faults (R79) before any request is issued (log entry 7), and a larger one keeps its rest (log entry 10). -/
def fillInto (op : StreamOp) (order : List Nat) (buf : List Bit) (s : State) :
    Except DriverFault (Host.Outcome (State × List Bit) Fault Refusal) :=
  if buf.length < op.size then .error .bufferTooSmall else .ok (fillGroups op order s buf)

/-! ### Concurrent calls into one buffer (20_memory.md R35) -/

/-- A result and the index of the shared buffer it is written at. -/
abbrev Region := Nat × List Bit

/-- The values that the calls write at element `k`, one per call whose output region holds `k`. -/
def writersAt (regions : List Region) (k : Nat) : List Bit :=
  regions.filterMap (fun region => if region.1 ≤ k then region.2[k - region.1]? else none)

/-- U6: an element no call writes stays as it was; an element one or more calls write ends up as what one of
them wrote, and `winner` says which. -/
def resolve (winner : Nat) (old : Bit) (written : List Bit) : Bit :=
  written.getD (winner % written.length) old

/-- The shared buffer after all the writes, element by element; `winner` decides the contested ones. -/
def overlay (winner : Nat → Nat) (buf : List Bit) (regions : List Region) : List Bit :=
  buf.mapIdx (fun k old => resolve (winner k) old (writersAt regions k))

/-- A stream call among concurrent ones: what it does, where its output region starts, and the copy of the
block it runs on (R34: disjoint chunks are processed "concurrently with no coordination required"). -/
structure Call where
  op : StreamOp
  offset : Nat
  block : State
  deriving DecidableEq, Repr

/-- Element `k` of the shared buffer lies in the call's output region. -/
def Call.covers (call : Call) (k : Nat) : Bool :=
  call.offset ≤ k && k < call.offset + call.op.size

/-- Each call run on its own copy of the block. -/
def runCalls : List Call → Host.Outcome (List (State × List Bit)) Fault Refusal
  | [] => .next []
  | call :: calls =>
    match streamOn call.op call.block with
    | .next u => mapNext (fun us => u :: us) (runCalls calls)
    | .fault f => .fault f
    | .refused f => .refused f

/-- Any number of concurrent calls with one caller-supplied buffer. A region that does not fit in the buffer
faults before any request is issued (R79, log entry 7). -/
def callWith (winner : Nat → Nat) (buf : List Bit) (calls : List Call) :
    Except DriverFault (Host.Outcome (List State × List Bit) Fault Refusal) :=
  if calls.any (fun call => buf.length < call.offset + call.op.size) then .error .bufferTooSmall
  else .ok (mapNext (fun us => (us.map Prod.fst,
    overlay winner buf (List.zipWith (fun call u => (call.offset, u.2)) calls us))) (runCalls calls))

/-- R35, U6: concurrent calls whose output regions overlap race: "both writers' values are admitted for each
contested element; no claim may depend on which wins". Which one wins is the free value
Config.raceWinner; `race` is the caller's count of the races so far (log entry 7). -/
def callConcurrently (race : Nat) (buf : List Bit) (calls : List Call) :
    Except DriverFault (Host.Outcome (List State × List Bit) Fault Refusal) :=
  callWith (Config.raceWinner race) buf calls

end Sys2Proof.Machine
end

