-- ==== Sys2Proof/Safety.lean ====
section
/-! DEFINITION. What counts as a safe run: the host keeps its side of 70_reset_and_hazards.md R112, and
the ports carry the response of 30_encoding.md R41. -/

namespace Sys2Proof.Machine

/-- R112, R113: the request is one the host may issue, so that every port of its response is specified. -/
def specified (r : Request) : Bool := (decodeReq r).wellFormed

/-- R19, R41: the ports carry the response to the request on the wires, row by row of R41's table. The
reserved request (R43) leaves `par_out` unconstrained. -/
def settled (s : State) : Bool :=
  let o := s.out
  let c := fieldArg s.req
  if fieldOp s.req = 0#2 then
    (match exponent? (fieldExp s.req) with
      | some p => o.parOut == parity c p
      | none => true)
    && o.synOut == 0#3 && o.cwOut == 0#7 && o.nibOut == 0#4
  else if fieldOp s.req = 1#2 then
    !o.parOut && o.synOut == syndrome c && o.cwOut == 0#7 && o.nibOut == 0#4
  else if fieldOp s.req = 2#2 then
    !o.parOut && o.synOut == 0#3 && o.cwOut == encodeNibble (fieldNibble s.req) && o.nibOut == 0#4
  else
    !o.parOut && o.synOut == syndrome c && o.cwOut == (decodeNibble c).2.1
      && o.nibOut == (decodeNibble c).1

/-- The states a host can bring the block to: from the start, by driving requests and by steps. -/
inductive Reachable : State → Prop where
  | reset : Reachable State.reset
  | drive (s : State) (r : Request) : Reachable s → Reachable (s.driveReq r)
  | step (s t : State) : Reachable s → step s = .next t → Reachable t

/-- A run of requests is safe when the host issues only specified requests and the block answers each of
them. -/
def SafeRun (rs : List Request) (s : State) : Prop :=
  (∀ r ∈ rs, specified r = true) ∧ ∃ t outs, serve rs s = .next (t, outs)

end Sys2Proof.Machine
end

