-- ==== Sys2Proof/Certificates/Slice0/Obligations.lean ====
section
/-! DEFINITION. The statements for the provers. Each docstring says which rule of spec/ it formalises.
Where a statement is about what the host sees, it speaks of `hostParity`, `hostSyndrome`, `hostEncode`
and `hostDecode` (30_encoding.md R46), each of which issues one request to the block. -/

open Sys2Proof Sys2Proof.Machine

/-! ### Requests, decoding and the step -/

/-- DESIGN CHOICE (log entries 2 and 4), not a rule: the model starts with `req` driven 0x000 and the
ports at the response to it. That the ports are the response to `req` is what R110 asks from power-up. -/
def Obligations.ResetPortsAnswerTheDrivenRequest : Prop :=
  settled State.reset = true ∧ State.reset.req = 0#11 ∧
    step State.reset = .next State.reset

/-- R16, R45: a step evaluates the request on the wires, whichever it is. Driving puts the request on the
wires and its response on the ports (R19). That a table word reaches the block by being driven, so that the
very next step runs it, is the model's choice (DESIGN CHOICE, log entry 3), no rule of the spec. -/
def Obligations.StepRunsTheDecodedRequest : Prop :=
  (∀ s : State, step s = exec (decodeReq s.req) s) ∧
  (∀ (s : State) (r : Request), (s.driveReq r).req = r ∧ settled (s.driveReq r) = true) ∧
  (∀ (s : State) (nbits w : Nat) (i : Instr), decodeTableWord nbits w = some i →
    step (s.withFetchWord nbits w) = exec i (s.driveReq (BitVec.ofNat 11 (w % 2 ^ nbits))))

/-- R38, R40, R45: words written out from the patterns decode to their operations; a word wider than the
request wires is rejected (log entry 3). -/
def Obligations.WrittenOutWordsDecode : Prop :=
  decodeTableWord 16 0b00011100110 = some (.parity 1#2 (codewordOf false true true false false true true)) ∧
  decodeTableWord 16 0b01001100111 = some (.syndrome (codewordOf true true true false false true true)) ∧
  decodeTableWord 16 0b10000001101 = some (.encode (nibbleOf true false true true)) ∧
  decodeTableWord 16 0b11001100110 = some (.decode (codewordOf false true true false false true true)) ∧
  decodeTableWord 16 0b100000000000 = none

/-- R40: every 11-bit value is selected by exactly one row of the operation table, the row of the
operation it decodes to. -/
def Obligations.ExactlyOneRowSelectsARequest : Prop :=
  ∀ r : Request, ∃ row ∈ opTable, r &&& row.mask = row.pattern ∧
    row.mnemonic = (decodeReq r).mnemonic ∧
    ∀ row' ∈ opTable, r &&& row'.mask = row'.pattern → row' = row

/-- R44: the 2048 request values, counted by what they decode to; each of them is answered. -/
def Obligations.RequestSpaceCounts : Prop :=
  let requests : List Request := (List.range 2048).map (BitVec.ofNat 11)
  requests.countP (fun r => (decodeReq r).mnemonic = "PARITY" ∧ specified r = true) = 384 ∧
  requests.countP (fun r => (decodeReq r).mnemonic = "PARITY" ∧ specified r = false) = 128 ∧
  requests.countP (fun r => (decodeReq r).mnemonic = "SYNDROME") = 512 ∧
  requests.countP (fun r => (decodeReq r).mnemonic = "ENCODE") = 512 ∧
  (∀ d : Nibble, requests.countP (fun r => decodeReq r = .encode d) = 32) ∧
  requests.countP (fun r => (decodeReq r).mnemonic = "DECODE") = 512 ∧
  ∀ (r : Request) (s : State), ∃ o, respond r s = some o

/-- R38, R39, R45: for every operation with every operand, decoding its encoding gives it back. -/
def Obligations.DecodeOfEncodeIsIdentity : Prop :=
  ∀ i : Instr, decodeReq (encodeReq i) = i

/-- R38, R42: encoding what a request decodes to gives the request back, with exactly the ignored bits of
its operation cleared. -/
def Obligations.EncodeOfDecodeClearsIgnoredBits : Prop :=
  ∀ r : Request, encodeReq (decodeReq r) =
    r &&& (if fieldOp r = 0#2 then 0x7FF#11 else if fieldOp r = 2#2 then 0x60F#11 else 0x67F#11)

/-- R42: `exp` is ignored by SYNDROME, ENCODE and DECODE, and `arg[6:4]` by ENCODE: requests that differ
only there get the same response, in any state. -/
def Obligations.IgnoredBitsDoNotReachTheResponse : Prop :=
  ∀ (r r' : Request) (s s' : State), fieldOp r ≠ 0#2 → fieldOp r' = fieldOp r →
    (if fieldOp r = 2#2 then fieldNibble r' = fieldNibble r else fieldArg r' = fieldArg r) →
    ∃ o, respond r s = some o ∧ respond r' s' = some o

/-! ### The four operations -/

/-- R52: for each legal exponent PARITY answers with the XOR of its group on `par_out` (and 0 on every
other port, nothing else changed); index `i` is in the group of `p` exactly when binary digit `p` of
`i + 1` is 1. -/
def Obligations.ParityDrivesTheGroupXor : Prop :=
  ∀ (cw : Codeword) (s : State),
    exec (.parity 0#2 cw) s =
      .next { s with out := ⟨cw[0] ^^ cw[2] ^^ cw[4] ^^ cw[6], 0#3, 0#7, 0#4⟩ } ∧
    exec (.parity 1#2 cw) s =
      .next { s with out := ⟨cw[1] ^^ cw[2] ^^ cw[5] ^^ cw[6], 0#3, 0#7, 0#4⟩ } ∧
    exec (.parity 2#2 cw) s =
      .next { s with out := ⟨cw[3] ^^ cw[4] ^^ cw[5] ^^ cw[6], 0#3, 0#7, 0#4⟩ } ∧
    ∀ (p : Fin 3) (i : Nat), i ∈ group p ↔ i < 7 ∧ (i + 1).testBit p = true

/-- R43, R53: PARITY with exponent 3 completes: some Bit on `par_out`, 0 on the other ports, the request
unchanged. That a draw is counted is the model's own (log entry 4). -/
def Obligations.ReservedParityCompletesWithSomeBit : Prop :=
  ∀ (cw : Codeword) (s : State), ∃ b : Bit,
    exec (.parity 3#2 cw) s = .next { req := s.req, out := ⟨b, 0#3, 0#7, 0#4⟩, draws := s.draws + 1 }

/-- R55, R57: SYNDROME answers with the three checks on `syn_out[0]`, `syn_out[1]`, `syn_out[2]`, read as
`P_0 + 2*P_1 + 4*P_2`, and 0 on every other port. -/
def Obligations.SyndromeDrivesTheThreeChecks : Prop :=
  ∀ (cw : Codeword) (s : State), ∃ syn : Syndrome,
    exec (.syndrome cw) s = .next { s with out := ⟨false, syn, 0#7, 0#4⟩ } ∧
    syn[0] = (cw[0] ^^ cw[2] ^^ cw[4] ^^ cw[6]) ∧
    syn[1] = (cw[1] ^^ cw[2] ^^ cw[5] ^^ cw[6]) ∧
    syn[2] = (cw[3] ^^ cw[4] ^^ cw[5] ^^ cw[6]) ∧
    syn.toNat = (cw[0] ^^ cw[2] ^^ cw[4] ^^ cw[6]).toNat +
      2 * (cw[1] ^^ cw[2] ^^ cw[5] ^^ cw[6]).toNat + 4 * (cw[3] ^^ cw[4] ^^ cw[5] ^^ cw[6]).toNat

/-- R60, R62: ENCODE answers with the seven equations on `cw_out` and 0 on every other port. -/
def Obligations.EncodeDrivesTheClosedForm : Prop :=
  ∀ (d : Nibble) (s : State),
    exec (.encode d) s = .next { s with out := ⟨false, 0#3,
      codewordOf (d[0] ^^ d[1] ^^ d[3]) (d[0] ^^ d[2] ^^ d[3]) d[0] (d[1] ^^ d[2] ^^ d[3]) d[1] d[2] d[3],
      0#4⟩ }

/-- R66, R67: DECODE answers with the syndrome of the operand, the codeword with bit `i` flipped exactly
when the syndrome is `i + 1`, and the data bits of the corrected codeword; `par_out` is 0. -/
def Obligations.DecodeDrivesTheCorrection : Prop :=
  ∀ (cw : Codeword) (s : State), ∃ (syn : Syndrome) (cw' : Codeword),
    exec (.decode cw) s =
      .next { s with out := ⟨false, syn, cw', nibbleOf cw'[2] cw'[4] cw'[5] cw'[6]⟩ } ∧
    syn[0] = (cw[0] ^^ cw[2] ^^ cw[4] ^^ cw[6]) ∧
    syn[1] = (cw[1] ^^ cw[2] ^^ cw[5] ^^ cw[6]) ∧
    syn[2] = (cw[3] ^^ cw[4] ^^ cw[5] ^^ cw[6]) ∧
    ∀ i < 7, cw'.getLsbD i = (cw.getLsbD i ^^ decide (syn.toNat = i + 1))

/-! ### The whole machine -/

/-- R96: no request raises anything: every operation and every step answers a next state, and there is no
fault to raise. -/
def Obligations.NothingEverStops : Prop :=
  (∀ i s, ∃ t, exec i s = .next t) ∧ (∀ s, ∃ t, step s = .next t) ∧
  (∀ rs s, ∃ t outs, serve rs s = .next (t, outs) ∧ outs.length = rs.length) ∧
  (∀ rs s, (∀ r ∈ rs, specified r = true) → SafeRun rs s) ∧
  (Fault → False)

/-- R26, R41, R15: what an evaluation leaves alone. The operand on `req` is never changed, the model's
draw count moves only at the reserved request, and the ports an operation does not produce carry 0. -/
def Obligations.EvaluationFrame : Prop :=
  ∀ (i : Instr) (s t : State), exec i s = .next t →
    t.req = s.req ∧
    t.draws = (if i.wellFormed then s.draws else s.draws + 1) ∧
    (i.mnemonic ≠ "PARITY" → t.out.parOut = false) ∧
    (i.mnemonic = "PARITY" ∨ i.mnemonic = "ENCODE" → t.out.synOut = 0#3) ∧
    (i.mnemonic = "PARITY" ∨ i.mnemonic = "SYNDROME" → t.out.cwOut = 0#7) ∧
    (i.mnemonic ≠ "DECODE" → t.out.nibOut = 0#4)

/-- R15, R34(a), R92: the response depends on the request and on nothing else: whatever stood on the ports
and whatever was evaluated before, equal well-formed operations answer equally; the reserved request
(R43) differs at most in `par_out`. -/
def Obligations.ResponseForgetsHistory : Prop :=
  ∀ (i : Instr) (s s' : State), ∃ t t', exec i s = .next t ∧ exec i s' = .next t' ∧
    (i.wellFormed = true → t.out = t'.out) ∧
    t'.out = { t.out with parOut := t'.out.parOut }

/-- R19, R41, R110: after a step, from any state, the ports carry the response of R41 to the request that
is still on the wires; in particular every step keeps `settled`. -/
def Obligations.EveryStepSettlesThePorts : Prop :=
  ∀ s t : State, step s = .next t → settled t = true ∧ t.req = s.req

/-- R93, R64, R41: an invariant of the ports: `cw_out` is a valid codeword, and where `nib_out` is not 0
it is the Nibble that `cw_out` encodes. -/
def Obligations.EveryStepKeepsPortsCoherent : Prop :=
  ∀ s t : State, step s = .next t →
    valid t.out.cwOut = true ∧ (t.out.nibOut = 0#4 ∨ encodeNibble t.out.nibOut = t.out.cwOut)

/-- R110, R19: from any state whatever, the ports carry the response to a request from the moment it is
driven; neither the requests before nor the state they left can influence the response to a specified
request, and driving leaves nothing of the response before (the reserved request, R43, may differ in
`par_out` alone). -/
def Obligations.PortsFollowTheRequestWires : Prop :=
  (∀ (s : State) (r : Request), settled (s.driveReq r) = true) ∧
  (∀ (s s' : State) (r : Request), specified r = true → (s.driveReq r).out = (s'.driveReq r).out) ∧
  (∀ (s s' : State) (r : Request),
    (s'.driveReq r).out = { (s.driveReq r).out with parOut := (s'.driveReq r).out.parOut }) ∧
  (∀ (s : State) (r : Request), specified r = true → step (s.driveReq r) = .next (s.driveReq r))

/-- R15, R19: the ports are no state. In every state that driving and steps can bring the block to from its
start (whose request is the model's choice, log entry 2), they carry the response to the request that is on
the wires; so two such states with the same specified request have the same ports, whatever came before. -/
def Obligations.PortsHoldNothingBeyondTheRequest : Prop :=
  (∀ s, Reachable s → settled s = true) ∧
  (∀ s s', Reachable s → Reachable s' → s'.req = s.req → specified s.req = true → s'.out = s.out)

/-- R33: evaluating the same specified request again gives the same response and changes nothing. -/
def Obligations.HoldingASpecifiedRequestIsIdempotent : Prop :=
  ∀ s t : State, specified s.req = true → step s = .next t → step t = .next t

/-! ### Parity and syndrome -/

/-- R54: the five facts about parity, read through PARITY requests to blocks in any state. (a) and (b): of
the parity positions a group contains its own and no other. (c) Linearity. (d) A single 1 at `i` gives
binary digit `p` of `i + 1`. (e) Bits outside the group do not matter. -/
def Obligations.ParityFacts : Prop :=
  (∀ p q : Fin 3, parityPos q ∈ group p ↔ q = p) ∧
  ∀ (p : Fin 3) (s s' s'' : State),
    (∀ a b : Codeword, ∃ x y, hostParity (BitVec.ofNat 2 p) a s = some x ∧
      hostParity (BitVec.ofNat 2 p) b s' = some y ∧
      hostParity (BitVec.ofNat 2 p) (a ^^^ b) s'' = some (x ^^ y)) ∧
    (∀ i < 7, hostParity (BitVec.ofNat 2 p) (flipAt i) s = some ((i + 1).testBit p)) ∧
    (∀ (cw : Codeword) (j : Nat) (b : Bit), j < 7 → j ∉ group p →
      hostParity (BitVec.ofNat 2 p) (setBit cw j b) s = hostParity (BitVec.ofNat 2 p) cw s')

/-- R14: SYNDROME answers 0 exactly on the codewords whose three parity groups XOR to 0, which are the
valid ones; each group contains its own parity position. -/
def Obligations.SyndromeZeroExactlyOnValid : Prop :=
  ∀ (cw : Codeword) (s : State), ∃ syn, hostSyndrome cw s = some syn ∧
    (syn = 0#3 ↔ (cw[0] ^^ cw[2] ^^ cw[4] ^^ cw[6]) = false ∧
      (cw[1] ^^ cw[2] ^^ cw[5] ^^ cw[6]) = false ∧ (cw[3] ^^ cw[4] ^^ cw[5] ^^ cw[6]) = false) ∧
    (valid cw = true ↔ syn = 0#3) ∧ ∀ p : Fin 3, parityPos p ∈ group p

/-- R59: (a) the closed form, (b) linearity, (c) on a valid codeword plus an error the syndrome is the
error's, (d) each value is taken by exactly 16 operands, (e) 0 exactly on the valid ones. -/
def Obligations.SyndromeFacts : Prop :=
  ∀ s s' s'' : State,
    (∀ cw : Codeword, hostSyndrome cw s = some
      (((List.range 7).filter cw.getLsbD).foldl (fun acc i => acc ^^^ BitVec.ofNat 3 (i + 1)) 0#3)) ∧
    (∀ a b : Codeword, ∃ x y, hostSyndrome a s = some x ∧ hostSyndrome b s' = some y ∧
      hostSyndrome (a ^^^ b) s'' = some (x ^^^ y)) ∧
    (∀ v e : Codeword, valid v = true → hostSyndrome (channel v e) s = hostSyndrome e s') ∧
    (∀ syn : Syndrome, ((List.range 128).map (BitVec.ofNat 7)).countP
      (fun cw => hostSyndrome cw s = some syn) = 16) ∧
    (∀ cw : Codeword, hostSyndrome cw s = some 0#3 ↔ valid cw = true)

/-- R31: bit `p` of the syndrome is the answer to PARITY `p` on the same codeword, asked of any copy. -/
def Obligations.SyndromePacksThreeParityRequests : Prop :=
  ∀ (cw : Codeword) (s s0 s1 s2 : State), ∃ syn, hostSyndrome cw s = some syn ∧
    hostParity 0#2 cw s0 = some syn[0] ∧ hostParity 1#2 cw s1 = some syn[1] ∧
    hostParity 2#2 cw s2 = some syn[2] ∧
    syn.toNat = syn[0].toNat + 2 * syn[1].toNat + 4 * syn[2].toNat

/-- R51, R56, R57: at length 7 the source's own loops give what the block answers; every other length, and
a mask larger than the sequence, is refused (log entry 6). -/
def Obligations.SourceLoopsAgreeAtLengthSeven : Prop :=
  (∀ (cw : Codeword) (s : State),
    (∀ p : Fin 3, hostParity (BitVec.ofNat 2 p) cw s = sourceParityCheck (bitsOfCodeword cw) p) ∧
    (hostSyndrome cw s).map BitVec.toNat = sourceSyndrome (bitsOfCodeword cw)) ∧
  (∀ bits : List Bit, bits.length ≠ 7 → sourceSyndrome bits = none ∧
    ∀ p, sourceParityCheck bits p = none) ∧
  (∀ (bits : List Bit) (p : Nat), 3 ≤ p → sourceParityCheck bits p = none)

/-! ### The encoder -/

/-- R64: (a) every encoding is valid, (b) `encode` is injective, (c) its image is all valid codewords,
(d) it is linear. -/
def Obligations.EncodeFacts : Prop :=
  ∀ s s' s'' : State,
    (∀ d : Nibble, ∃ cw, hostEncode d s = some cw ∧ hostSyndrome cw s' = some 0#3) ∧
    (∀ a b : Nibble, hostEncode a s = hostEncode b s' → a = b) ∧
    (∀ cw : Codeword, valid cw = true ↔ ∃ d, hostEncode d s = some cw) ∧
    (∀ a b : Nibble, ∃ x y, hostEncode a s = some x ∧ hostEncode b s' = some y ∧
      hostEncode (a ^^^ b) s'' = some (x ^^^ y))

/-- R63: the three parity bits may be filled in any order, and all at once from the placed data; on a
finished codeword every parity is 0, so filling one again stores 0, which destroys the codeword exactly
when that parity bit was 1. -/
def Obligations.ParityFillOrderIsImmaterial : Prop :=
  ∀ (d : Nibble) (s : State),
    (∀ order : List (Fin 3), order.Perm [0, 1, 2] →
      hostEncode d s = some (fillParities order (placeData d))) ∧
    hostEncode d s = some ([0, 1, 2].foldl
      (fun cw (p : Fin 3) => setBit cw (parityPos p) (parity (placeData d) p)) (placeData d)) ∧
    ∀ cw, hostEncode d s = some cw → ∀ p : Fin 3,
      parity cw p = false ∧ fillParity cw p = setBit cw (parityPos p) false ∧
      (fillParity cw p ≠ cw ↔ cw.getLsbD (parityPos p) = true)

/-- R115, R62: a host that presents the placed data, parity positions 0, to three PARITY requests and
stores the answers gets what ENCODE answers. -/
def Obligations.EncodeRebuiltFromParityRequests : Prop :=
  ∀ (d : Nibble) (s s' : State), ∃ cw, hostEncodeFromParity d s = some cw ∧ hostEncode d s' = some cw

/-- R65: the complete function table of ENCODE: Nibble, request word, result port. -/
def Obligations.EncodeFunctionTable : Prop :=
  ∀ s : State, ∀ row ∈ ([
      (nibbleOf false false false false, 0x400#11, 0x00#7), (nibbleOf false false false true, 0x408#11, 0x4B#7),
      (nibbleOf false false true false, 0x404#11, 0x2A#7), (nibbleOf false false true true, 0x40C#11, 0x61#7),
      (nibbleOf false true false false, 0x402#11, 0x19#7), (nibbleOf false true false true, 0x40A#11, 0x52#7),
      (nibbleOf false true true false, 0x406#11, 0x33#7), (nibbleOf false true true true, 0x40E#11, 0x78#7)] ++ [
      (nibbleOf true false false false, 0x401#11, 0x07#7), (nibbleOf true false false true, 0x409#11, 0x4C#7),
      (nibbleOf true false true false, 0x405#11, 0x2D#7), (nibbleOf true false true true, 0x40D#11, 0x66#7),
      (nibbleOf true true false false, 0x403#11, 0x1E#7), (nibbleOf true true false true, 0x40B#11, 0x55#7),
      (nibbleOf true true true false, 0x407#11, 0x34#7), (nibbleOf true true true true, 0x40F#11, 0x7F#7)] :
      List (Nibble × Request × Codeword)),
    encodeReq (.encode row.1) = row.2.1 ∧ respond row.2.1 s = some ⟨false, 0#3, row.2.2, 0#4⟩

/-! ### The decoder and the code -/

/-- R72: (a) the corrected codeword is valid, (b) the only valid codeword within distance 1 of the operand,
at distance 0 exactly when the syndrome is 0, (c) the nibble encodes to it, (d) a clean codeword comes
back as it was, (e) the data bit that differs, if any, is the one the syndrome names, (f) each nibble is
the answer to exactly 8 operands. -/
def Obligations.DecodeFacts : Prop :=
  ∀ s s' : State,
    (∀ cw : Codeword, ∃ d cw' syn, hostDecode cw s = some (d, cw', syn) ∧
      hostSyndrome cw' s' = some 0#3 ∧
      (∀ v : Codeword, valid v = true → (distance cw v ≤ 1 ↔ v = cw')) ∧
      distance cw cw' = (if syn = 0#3 then 0 else 1) ∧
      hostEncode d s' = some cw' ∧
      d = nibbleOf (cw[2] ^^ decide (syn = 3#3)) (cw[4] ^^ decide (syn = 5#3))
        (cw[5] ^^ decide (syn = 6#3)) (cw[6] ^^ decide (syn = 7#3))) ∧
    (∀ x : Nibble, ∃ cw, hostEncode x s = some cw ∧ hostDecode cw s' = some (x, cw, 0#3)) ∧
    (∀ d : Nibble, ((List.range 128).map (BitVec.ofNat 7)).countP
      (fun cw => (hostDecode cw s).map Prod.fst = some d) = 8)

/-- R85: for every Nibble, decoding its encoding gives it back, with the codeword unchanged and syndrome
0, whatever state the two blocks are in. -/
def Obligations.NoErrorRoundTrip : Prop :=
  ∀ (x : Nibble) (s s' : State), ∃ cw, hostEncode x s = some cw ∧
    hostDecode cw s' = some (x, cw, 0#3)

/-- R84, R87: with at most one bit flipped by the channel, DECODE recovers the Nibble and the codeword
exactly; with exactly bit `i` flipped it also answers syndrome `i + 1` (a part of R86, which
SyndromeNamesTheFlippedPosition states whole). -/
def Obligations.SingleErrorsAreCorrected : Prop :=
  (∀ (x : Nibble) (e : Codeword) (s s' : State), weight e ≤ 1 →
    ∃ cw syn, hostEncode x s = some cw ∧ hostDecode (channel cw e) s' = some (x, cw, syn)) ∧
  (∀ (x : Nibble) (i : Nat) (s s' : State), i < 7 → ∃ cw, hostEncode x s = some cw ∧
    hostDecode (channel cw (flipAt i)) s' = some (x, cw, BitVec.ofNat 3 (i + 1)))

/-- R86: the syndrome of an encoding is 0; with exactly the bit at 0-based position `i` flipped it is
`i + 1`; and a sequence has syndrome 0 only if it is the encoding of some Nibble. -/
def Obligations.SyndromeNamesTheFlippedPosition : Prop :=
  (∀ (x : Nibble) (s s' : State), ∃ cw, hostEncode x s = some cw ∧ hostSyndrome cw s' = some 0#3 ∧
    ∀ i < 7, hostSyndrome (channel cw (flipAt i)) s' = some (BitVec.ofNat 3 (i + 1))) ∧
  (∀ (cw : Codeword) (s s' : State), hostSyndrome cw s = some 0#3 → ∃ x, hostEncode x s' = some cw)

/-- R70(b), R88: with two or more positions flipped DECODE still answers, with a valid codeword within
distance 1 of what it received, and never the Nibble that was encoded; with exactly two, at `i` and `j`,
the syndrome is `(i+1) xor (j+1)` and the answer is at distance 3 from the codeword sent. -/
def Obligations.MultipleErrorsAreNeverRecovered : Prop :=
  (∀ (x : Nibble) (e : Codeword) (s s' : State), 2 ≤ weight e →
    ∃ cw d cw' syn, hostEncode x s = some cw ∧ hostDecode (channel cw e) s' = some (d, cw', syn) ∧
      d ≠ x ∧ cw' ≠ cw ∧ valid cw' = true ∧ distance (channel cw e) cw' ≤ 1 ∧
      hostSyndrome e s = some syn) ∧
  (∀ (x : Nibble) (i j : Nat) (s s' : State), i < 7 → j < 7 → i ≠ j →
    ∃ cw d cw', hostEncode x s = some cw ∧
      hostDecode (channel cw (flipAt i ^^^ flipAt j)) s' =
        some (d, cw', BitVec.ofNat 3 (i + 1) ^^^ BitVec.ofNat 3 (j + 1)) ∧
      distance cw cw' = 3 ∧ d ≠ x)

/-- R89: any two distinct encodings differ in at least 3 positions, and some pair in exactly 3. -/
def Obligations.MinimumDistanceIsThree : Prop :=
  ∀ s s' : State,
    (∀ a b : Nibble, a ≠ b → ∃ x y, hostEncode a s = some x ∧ hostEncode b s' = some y ∧
      3 ≤ distance x y) ∧
    ∃ a b x y, hostEncode a s = some x ∧ hostEncode b s' = some y ∧ distance x y = 3

/-- R93: a sequence decodes to a Nibble exactly when it is that Nibble's codeword or one of its seven
single-bit corruptions, so the 128 sequences fall into 16 classes of 8. -/
def Obligations.EverySequenceFallsInOneClass : Prop :=
  ∀ (cw : Codeword) (s s' : State), ∃ d v syn, hostDecode cw s = some (d, v, syn) ∧
    hostEncode d s' = some v ∧
    (∀ x y, hostEncode x s' = some y → (x = d ↔ (cw = y ∨ ∃ i < 7, cw = channel y (flipAt i))))

/-- R17, R71, R118: DECODE changed a bit exactly when `syn_out` is not 0, which is exactly when `cw_out`
differs from the operand. -/
def Obligations.CorrectionIsVisibleInTheSyndrome : Prop :=
  ∀ (cw : Codeword) (s : State), ∃ o, respond (encodeReq (.decode cw)) s = some o ∧
    (o.corrected = true ↔ o.cwOut ≠ cw) ∧ (o.synOut = 0#3 ↔ o.cwOut = cw)

/-- R68: the guard `s - 1 < 7` never prevents a correction: DECODE flips index `s - 1` whenever `s` is not
0. -/
def Obligations.DecoderGuardIsDead : Prop :=
  ∀ (cw : Codeword) (s : State), ∃ d cw' syn, hostDecode cw s = some (d, cw', syn) ∧
    (syn ≠ 0#3 → syn.toNat - 1 < 7 ∧ cw' = cw ^^^ flipAt (syn.toNat - 1)) ∧ (syn = 0#3 → cw' = cw)

/-! ### Several requests, several copies -/

/-- R108, R34(a): `n` requests served by one block, one after another, get the responses that `n` copies
in any states give to one request each; only `par_out` of a reserved request (R43) may differ. -/
def Obligations.OneBlockServesAsManyCopies : Prop :=
  ∀ (rs : List Request) (s : State) (copies : List State), copies.length = rs.length →
    ∃ t outs outs', serve rs s = .next (t, outs) ∧ serveEach copies rs = some outs' ∧
      outs.length = rs.length ∧ outs'.length = rs.length ∧
      ∀ (k : Nat) (r : Request), rs[k]? = some r → ∃ o o', outs[k]? = some o ∧ outs'[k]? = some o' ∧
        (specified r = true → o = o') ∧ o' = { o with parOut := o'.parOut }

/-- R34(b): specified requests may be served in any order: each gets the same response. -/
def Obligations.ServingOrderIsImmaterial : Prop :=
  ∀ (rs rs' : List Request) (s s' : State), rs'.Perm rs → (∀ r ∈ rs, specified r = true) →
    ∃ t t' outs outs', serve rs s = .next (t, outs) ∧ serve rs' s' = .next (t', outs') ∧
      (rs'.zip outs').Perm (rs.zip outs)

/-! ### The stream driver -/

/-- R74, R77: ENCODEBITS run on the block: `len div 4` requests, group `g` of 4 bits gives output bits
`7g` to `7g+6`, the remainder is dropped. -/
def Obligations.EncodeBitsGroupByGroup : Prop :=
  ∀ (bits : List Bit) (s : State), ∃ t out, encodeBitsOn bits s = .next (t, out) ∧
    (StreamOp.encodeBits bits).requests.length = bits.length / 4 ∧
    out.length = 7 * (bits.length / 4) ∧
    ∀ g < bits.length / 4, ∃ cw,
      hostEncode (nibbleOf (bits.getD (4 * g) false) (bits.getD (4 * g + 1) false)
        (bits.getD (4 * g + 2) false) (bits.getD (4 * g + 3) false)) s = some cw ∧
      (out.drop (7 * g)).take 7 = bitsOfCodeword cw

/-- R75, R77: DECODEBITS run on the block: `len div 7` requests, group `g` of 7 bits gives output bits
`4g` to `4g+3`, the remainder is dropped. -/
def Obligations.DecodeBitsGroupByGroup : Prop :=
  ∀ (coded : List Bit) (s : State), ∃ t out, decodeBitsOn coded s = .next (t, out) ∧
    (StreamOp.decodeBits coded).requests.length = coded.length / 7 ∧
    out.length = 4 * (coded.length / 7) ∧
    ∀ g < coded.length / 7, ∃ d cw' syn,
      hostDecode (codewordOf (coded.getD (7 * g) false) (coded.getD (7 * g + 1) false)
        (coded.getD (7 * g + 2) false) (coded.getD (7 * g + 3) false) (coded.getD (7 * g + 4) false)
        (coded.getD (7 * g + 5) false) (coded.getD (7 * g + 6) false)) s = some (d, cw', syn) ∧
      (out.drop (4 * g)).take 4 = bitsOfNibble d

/-- R76, R29(c): ENCODEBYTES run on the block: byte `j` gives output bits `14j` to `14j+13`, its high
nibble (bit 7 as element 0) before its low nibble. -/
def Obligations.EncodeBytesByteByByte : Prop :=
  ∀ (bytes : List Byte) (s : State), ∃ t out, encodeBytesOn bytes s = .next (t, out) ∧
    (StreamOp.encodeBytes bytes).requests.length = 2 * bytes.length ∧
    out.length = 14 * bytes.length ∧
    ∀ j < bytes.length, ∃ hi lo,
      (let b := bytes.getD j 0#8
       hostEncode (nibbleOf b[7] b[6] b[5] b[4]) s = some hi ∧
       hostEncode (nibbleOf b[3] b[2] b[1] b[0]) s = some lo) ∧
      (out.drop (14 * j)).take 14 = bitsOfCodeword hi ++ bitsOfCodeword lo

/-- R90: the two length contracts of the stream driver. -/
def Obligations.StreamLengthContracts : Prop :=
  ∀ (bits codeBits : List Bit) (s : State), ∃ t out t' out',
    encodeBitsOn bits s = .next (t, out) ∧ out.length = 7 * (bits.length / 4) ∧
    decodeBitsOn codeBits s = .next (t', out') ∧ out'.length = 4 * (codeBits.length / 7)

/-- R84, R75, R74: a stream encoded by one block, passed through a channel that flips at most one bit in
each codeword, and decoded by another, is the stream that was sent, less the remainder that was dropped. -/
def Obligations.StreamSurvivesOneErrorPerCodeword : Prop :=
  ∀ (bits errs : List Bit) (s s' : State), errs.length = 7 * (bits.length / 4) →
    (∀ g < bits.length / 4, ((errs.drop (7 * g)).take 7).count true ≤ 1) →
    ∃ t t' coded, encodeBitsOn bits s = .next (t, coded) ∧
      decodeBitsOn (channelBits coded errs) s' = .next (t', bits.take (4 * (bits.length / 4)))

/-- R76, R84: the same for bytes: what comes back are the bits of the bytes, most significant first. -/
def Obligations.BytesSurviveOneErrorPerCodeword : Prop :=
  ∀ (bytes : List Byte) (errs : List Bit) (s s' : State), errs.length = 14 * bytes.length →
    (∀ g < 2 * bytes.length, ((errs.drop (7 * g)).take 7).count true ≤ 1) →
    ∃ t t' coded, encodeBytesOn bytes s = .next (t, coded) ∧
      decodeBitsOn (channelBits coded errs) s' = .next (t', bytes.flatMap bitsOfByte)

/-- R80, R34(c): the groups of a stream may be evaluated in any order, each result landing at its own
place in the output buffer: it ends up holding the stream's output. For each of ENCODEBITS, DECODEBITS and
ENCODEBYTES. That a buffer larger than the exact size is accepted and keeps its rest is the model's choice
(DESIGN CHOICE, log entry 10). -/
def Obligations.GroupOrderIsImmaterial : Prop :=
  ∀ (op : StreamOp) (order : List Nat) (buf : List Bit) (s s' : State),
    order.Perm (List.range op.requests.length) → op.size ≤ buf.length →
    ∃ t t' out, streamOn op s = .next (t, out) ∧ out.length = op.size ∧
      fillInto op order buf s' = .ok (.next (t', out ++ buf.drop op.size))

/-- R79, R78, R99: a call of ENCODEBITS, DECODEBITS or ENCODEBYTES into a caller's buffer, its groups in the
stream's or in any order, faults when the buffer is smaller than the required size, `7 * (L div 4)`,
`4 * (L div 7)` or `14 * m`; otherwise the whole result stands at its start. Two points are the model's
choice: that the fault comes before any request is issued (DESIGN CHOICE, log entry 7), and that a buffer
larger than the exact size is accepted and keeps its rest (DESIGN CHOICE, log entry 10). -/
def Obligations.TooSmallBufferFailsFast : Prop :=
  (∀ bits, (StreamOp.encodeBits bits).size = 7 * (bits.length / 4)) ∧
  (∀ coded, (StreamOp.decodeBits coded).size = 4 * (coded.length / 7)) ∧
  (∀ bytes, (StreamOp.encodeBytes bytes).size = 14 * bytes.length) ∧
  ∀ (op : StreamOp) (buf : List Bit) (s : State),
    (buf.length < op.size → streamInto op buf s = .error .bufferTooSmall ∧
      ∀ order, fillInto op order buf s = .error .bufferTooSmall) ∧
    (op.size ≤ buf.length → ∃ t out, streamOn op s = .next (t, out) ∧ out.length = op.size ∧
      streamInto op buf s = .ok (.next (t, out ++ buf.drop op.size)))

/-- R35, U6: any number of concurrent calls into one buffer, whichever writer wins where they overlap
(`winner`, in a run the free value Config.raceWinner). An element in no call's region stays as it was; an
element in some call's region ends up as what one of those calls wrote there. A region that does not fit
faults; that it does so before any request is issued is the model's choice (DESIGN CHOICE, log entry 7). -/
def Obligations.ConcurrentCallsWriteWhatSomeCallWrote : Prop :=
  ∀ (winner : Nat → Nat) (buf : List Bit) (calls : List Call),
    ((∃ call ∈ calls, buf.length < call.offset + call.op.size) →
      callWith winner buf calls = .error .bufferTooSmall) ∧
    ((∀ call ∈ calls, call.offset + call.op.size ≤ buf.length) →
      ∃ (us : List (State × List Bit)) (out : List Bit),
        List.Forall₂ (fun call u => streamOn call.op call.block = .next u) calls us ∧
        callWith winner buf calls = .ok (.next (us.map Prod.fst, out)) ∧ out.length = buf.length ∧
        ∀ k < buf.length,
          ((∀ call ∈ calls, call.covers k = false) → out[k]? = buf[k]?) ∧
          ((∃ call ∈ calls, call.covers k = true) → ∃ call u, (call, u) ∈ calls.zip us ∧
            call.covers k = true ∧ out[k]? = u.2[k - call.offset]?))

/-- R35, U6: "both writers' values are admitted for each contested element": every buffer in which each
element is what some call with a region there wrote, and the others are as they were, is the outcome for some
choice of winners. -/
def Obligations.EveryWriterOfAContestedElementMayWin : Prop :=
  ∀ (buf want : List Bit) (calls : List Call) (us : List (State × List Bit)),
    (∀ call ∈ calls, call.offset + call.op.size ≤ buf.length) →
    List.Forall₂ (fun call u => streamOn call.op call.block = .next u) calls us →
    want.length = buf.length →
    (∀ k < buf.length,
      ((∀ call ∈ calls, call.covers k = false) ∧ want[k]? = buf[k]?) ∨
      ∃ call u, (call, u) ∈ calls.zip us ∧ call.covers k = true ∧ want[k]? = u.2[k - call.offset]?) →
    ∃ winner, callWith winner buf calls = .ok (.next (us.map Prod.fst, want))

/-- R35, R34, R117: calls whose output regions share no element do not race: the outcome is the same whoever
would win, at every count of races. -/
def Obligations.DisjointOutputsDoNotRace : Prop :=
  ∀ (buf : List Bit) (calls : List Call) (race : Nat) (winner : Nat → Nat),
    calls.Pairwise (fun a b => ∀ k, a.covers k = true → b.covers k = false) →
    callConcurrently race buf calls = callWith winner buf calls
end

