-- ==== Sys2Proof/Laws/State.lean ====
section
/-! SUPPORT. One lemma per field per update of the state, so that no proof unfolds a record update. -/

namespace Sys2Proof.Machine

@[simp] theorem setReq_req (s : State) (r : Request) : (s.setReq r).req = r := rfl
@[simp] theorem setReq_out (s : State) (r : Request) : (s.setReq r).out = s.out := rfl
@[simp] theorem setReq_draws (s : State) (r : Request) : (s.setReq r).draws = s.draws := rfl
@[simp] theorem setReq_freeBit (s : State) (r : Request) : (s.setReq r).freeBit = s.freeBit := rfl

@[simp] theorem driveOut_req (s : State) (o : Response) : (s.driveOut o).req = s.req := rfl
@[simp] theorem driveOut_out (s : State) (o : Response) : (s.driveOut o).out = o := rfl
@[simp] theorem driveOut_draws (s : State) (o : Response) : (s.driveOut o).draws = s.draws := rfl

@[simp] theorem countDraw_req (s : State) : s.countDraw.req = s.req := rfl
@[simp] theorem countDraw_out (s : State) : s.countDraw.out = s.out := rfl
@[simp] theorem countDraw_draws (s : State) : s.countDraw.draws = s.draws + 1 := rfl

@[simp] theorem setReq_self (s : State) : s.setReq s.req = s := rfl
@[simp] theorem setReq_setReq (s : State) (r r' : Request) :
    (s.setReq r).setReq r' = s.setReq r' := rfl
@[simp] theorem driveOut_driveOut (s : State) (o o' : Response) :
    (s.driveOut o).driveOut o' = s.driveOut o' := rfl

@[simp] theorem zero_parOut : Response.zero.parOut = false := rfl
@[simp] theorem zero_synOut : Response.zero.synOut = 0#3 := rfl
@[simp] theorem zero_cwOut : Response.zero.cwOut = 0#7 := rfl
@[simp] theorem zero_nibOut : Response.zero.nibOut = 0#4 := rfl

end Sys2Proof.Machine
end

