-- ==== Sys2Proof/Laws/Ops.lean ====
section
/-! SUPPORT. What each shared operation over bits and positions does, said once. -/

namespace Sys2Proof.Machine

/-- `s[i] <- b` replaces element `i` and no other. -/
theorem getLsbD_setBit {w : Nat} (v : BitVec w) (i j : Nat) (b : Bit) (hi : i < w) :
    (setBit v i b).getLsbD j = if j = i then b else v.getLsbD j := by
  by_cases hj : j = i
  · subst hj; cases b <;> simp [setBit, hi]
  · cases b <;> simp [setBit, hj, Ne.symm hj] <;> exact fun h => BitVec.lt_of_getLsbD h

/-- The legal exponents are 0, 1 and 2, and only 3 is none. -/
theorem exponent?_eq_none_iff (exp : BitVec 2) : exponent? exp = none ↔ exp = 3#2 := by
  revert exp; decide

/-- A legal exponent stands on the wires as its number. -/
theorem exponent?_ofNat (p : Fin 3) : exponent? (BitVec.ofNat 2 p) = some p := by
  revert p; decide

/-- The three parity groups. -/
theorem group_eq : group 0 = [0, 2, 4, 6] ∧ group 1 = [1, 2, 5, 6] ∧ group 2 = [3, 4, 5, 6] := by
  decide

/-- R5, R12: the data positions are the codeword's positions that are no parity position, as many as a
Nibble has bits. -/
theorem dataPos_eq : dataPos = (List.range Config.codewordBits).filter
    (fun i => !((List.range Config.parityBits).map parityPos).contains i) ∧
    dataPos.length = Config.nibbleBits := by decide

/-- R29(b): placing data and extracting it again gives the data. -/
theorem extractData_placeData (d : Nibble) : extractData (placeData d) = d := by
  revert d; decide

/-- The XOR over a set of positions is linear in the codeword. -/
theorem xorOver_xor (a b : Codeword) (is : List Nat) :
    xorOver (a ^^^ b) is = (xorOver a is ^^ xorOver b is) := by
  induction is with
  | nil => rfl
  | cons i is ih =>
    simp only [xorOver, List.foldr_cons, BitVec.getLsbD_xor] at ih ⊢
    rw [ih]
    cases a.getLsbD i <;> cases b.getLsbD i <;> simp

/-- Parity is linear. -/
theorem parity_xor (a b : Codeword) (p : Fin 3) :
    parity (a ^^^ b) p = (parity a p ^^ parity b p) := xorOver_xor a b (group p)

/-- A codeword is valid exactly when all three parities are 0. -/
theorem valid_iff (cw : Codeword) :
    valid cw = true ↔ parity cw 0 = false ∧ parity cw 1 = false ∧ parity cw 2 = false := by
  simp [valid, and_assoc]

/-- The bits of a vector built from a list are the list's. -/
theorem bitsOfNibble_nibbleOf (d0 d1 d2 d3 : Bit) :
    bitsOfNibble (nibbleOf d0 d1 d2 d3) = [d0, d1, d2, d3] := by
  revert d0 d1 d2 d3; decide

/-- The bits of a codeword built from a list are the list's. -/
theorem bitsOfCodeword_codewordOf (c0 c1 c2 c3 c4 c5 c6 : Bit) :
    bitsOfCodeword (codewordOf c0 c1 c2 c3 c4 c5 c6) = [c0, c1, c2, c3, c4, c5, c6] := by
  revert c0 c1 c2 c3 c4 c5 c6; decide

end Sys2Proof.Machine
end

