-- ==== Sys2Proof/Laws/Exec.lean ====
section
/-! SUPPORT. Everything an evaluation, and a run of evaluations, can do, said once: later proofs cite
these and do not unfold `exec`, `step` or `serve`. -/

namespace Sys2Proof.Machine

/-- The response of 30_encoding.md R41 to an operation, with the Bit a reserved request would draw. -/
def responseOf (i : Instr) (drawn : Bit) : Response :=
  match i with
  | .parity exp c =>
    match exponent? exp with
    | some p => { Response.zero with parOut := parity c p }
    | none => { Response.zero with parOut := drawn }
  | .syndrome c => { Response.zero with synOut := syndrome c }
  | .encode d => { Response.zero with cwOut := encodeNibble d }
  | .decode c => ⟨false, (decodeNibble c).2.2, (decodeNibble c).2.1, (decodeNibble c).1⟩

/-- How many free Bits an operation draws. -/
def drawsOf (i : Instr) : Nat := if i.wellFormed then 0 else 1

/-- Everything an operation can do: drive its response, and count a draw if it is reserved. -/
theorem exec_eq (i : Instr) (s : State) : exec i s =
    .next { req := s.req, out := responseOf i s.freeBit, draws := s.draws + drawsOf i } := by
  cases i with
  | parity exp c =>
    cases h : exponent? exp with
    | none =>
      have h3 := (exponent?_eq_none_iff exp).mp h
      simp [exec, execParity, responseOf, drawsOf, Instr.wellFormed, h3, State.driveOut,
        State.countDraw, show exponent? 3#2 = none from rfl]
    | some p =>
      have h3 : exp ≠ 3#2 := fun e => by simp [(exponent?_eq_none_iff exp).mpr e] at h
      simp [exec, execParity, responseOf, drawsOf, Instr.wellFormed, h, h3, State.driveOut]
  | syndrome c => rfl
  | encode d => rfl
  | decode c => rfl

/-- A well-formed operation's response does not look at the drawn Bit. -/
theorem responseOf_wellFormed (i : Instr) (h : i.wellFormed = true) (b b' : Bit) :
    responseOf i b = responseOf i b' := by
  cases i with
  | parity exp c =>
    cases hp : exponent? exp with
    | none => simp [Instr.wellFormed, (exponent?_eq_none_iff exp).mp hp] at h
    | some p => simp [responseOf, hp]
  | syndrome c => rfl
  | encode d => rfl
  | decode c => rfl

/-- A step holds the request and answers it once more. -/
theorem step_eq (s : State) : step s =
    .next { req := s.req, out := responseOf (decodeReq s.req) s.freeBit,
            draws := s.draws + drawsOf (decodeReq s.req) } :=
  exec_eq (decodeReq s.req) s

/-- Driving the wires: the ports answer the new request at once. -/
theorem driveReq_eq (s : State) (r : Request) : s.driveReq r =
    { req := r, out := responseOf (decodeReq r) s.freeBit, draws := s.draws + drawsOf (decodeReq r) } := by
  simp [State.driveReq, exec_eq, nextOr]

@[simp] theorem driveReq_req (s : State) (r : Request) : (s.driveReq r).req = r := by
  rw [driveReq_eq]

/-- Everything a request issued to a block can do. -/
theorem issue_eq (r : Request) (s : State) : issue r s =
    .next { req := r, out := responseOf (decodeReq r) (s.driveReq r).freeBit,
            draws := (s.driveReq r).draws + drawsOf (decodeReq r) } := by
  rw [issue, step_eq, driveReq_req]

/-- The response a host samples. -/
theorem respond_eq (r : Request) (s : State) :
    respond r s = some (responseOf (decodeReq r) (s.driveReq r).freeBit) := by
  simp [respond, issue_eq]

@[simp] theorem mapNext_next {σ τ φ ρ : Type} (f : σ → τ) (s : σ) :
    mapNext f (Host.Outcome.next s : Host.Outcome σ φ ρ) = .next (f s) := rfl

/-- A run of requests, one request at a time. -/
theorem serve_cons (r : Request) (rs : List Request) (s : State) : serve (r :: rs) s =
    mapNext (fun u => (u.1, responseOf (decodeReq r) (s.driveReq r).freeBit :: u.2))
      (serve rs { req := r, out := responseOf (decodeReq r) (s.driveReq r).freeBit,
                  draws := (s.driveReq r).draws + drawsOf (decodeReq r) }) := by
  simp [serve, issue_eq]

/-! ### The shared buffer -/

@[simp] theorem overlay_length (winner : Nat → Nat) (buf : List Bit) (regions : List Region) :
    (overlay winner buf regions).length = buf.length := by simp [overlay]

/-- The shared buffer, element by element. -/
theorem getElem?_overlay (winner : Nat → Nat) (buf : List Bit) (regions : List Region) (k : Nat) :
    (overlay winner buf regions)[k]? =
      buf[k]?.map (fun old => resolve (winner k) old (writersAt regions k)) := by simp [overlay]

/-- An element no call writes stays as it was. -/
theorem resolve_nil (winner : Nat) (old : Bit) : resolve winner old [] = old := rfl

/-- An element some call writes ends up as what one of them wrote. -/
theorem resolve_mem (winner : Nat) (old : Bit) (written : List Bit) (h : written ≠ []) :
    resolve winner old written ∈ written := by
  have hl : winner % written.length < written.length :=
    Nat.mod_lt _ (List.length_pos_of_ne_nil h)
  rw [resolve, List.getD_eq_getElem _ _ hl]
  exact List.getElem_mem hl

/-- A place inside the buffer keeps the buffer's length. -/
theorem place_length (buf xs : List Bit) (a : Nat) (h : a + xs.length ≤ buf.length) :
    (place buf a xs).length = buf.length := by
  simp only [place, List.length_append, List.length_take, List.length_drop]; omega

/-- A place inside the buffer, element by element: the result where it stands, the buffer elsewhere. -/
theorem getElem?_place (buf xs : List Bit) (a k : Nat) (h : a + xs.length ≤ buf.length) :
    (place buf a xs)[k]? = if a ≤ k ∧ k < a + xs.length then xs[k - a]? else buf[k]? := by
  simp only [place, List.append_assoc]
  rw [List.getElem?_append, List.getElem?_append]
  simp only [List.length_take, List.getElem?_take, List.getElem?_drop, Nat.min_eq_left (by omega : a ≤ buf.length)]
  split_ifs <;> first | rfl | omega | (congr 1; omega)

end Sys2Proof.Machine
end

