-- ==== Sys2Proof/Laws/PerInstr.lean ====
section
/-! SUPPORT. Facts about every operation as syntax, one lemma per constructor. -/

namespace Sys2Proof.Laws.OwnRow

/-- 30_encoding.md R40: an operation's encoding selects the row of the table that bears its mnemonic. -/
def Statement (i : Instr) : Prop :=
  ∃ row ∈ opTable, row.mnemonic = i.mnemonic ∧ row.selects (encodeReq i) = true

/-- The two top wires of a packed request are its operation code. -/
theorem packRequest_and_mask (op exp : BitVec 2) (arg : Codeword) :
    packRequest op exp arg &&& 0x600#11 = op.setWidth 11 <<< 9 := by
  ext k hk
  interval_cases k <;> simp [packRequest]

theorem parity (exp : BitVec 2) (c : Codeword) : Statement (.parity exp c) :=
  ⟨⟨"PARITY", 0x000#11, 0x600#11⟩, by simp [opTable], rfl,
    by simp [OpRow.selects, encodeReq, packRequest_and_mask]⟩

theorem syndrome (c : Codeword) : Statement (.syndrome c) :=
  ⟨⟨"SYNDROME", 0x200#11, 0x600#11⟩, by simp [opTable], rfl,
    by simp [OpRow.selects, encodeReq, packRequest_and_mask]⟩

theorem encode (d : Nibble) : Statement (.encode d) :=
  ⟨⟨"ENCODE", 0x400#11, 0x600#11⟩, by simp [opTable], rfl,
    by simp [OpRow.selects, encodeReq, packRequest_and_mask]⟩

theorem decode (c : Codeword) : Statement (.decode c) :=
  ⟨⟨"DECODE", 0x600#11, 0x600#11⟩, by simp [opTable], rfl,
    by simp [OpRow.selects, encodeReq, packRequest_and_mask]⟩

end Sys2Proof.Laws.OwnRow
end

