-- ==== Sys2Proof/Tests/Slice0.lean ====
section
/-! SUPPORT. The model's own tests: expected results from 95_test_vectors.md and the worked examples of
40_parity.md to 43_decoder.md, and one witness for the hypotheses of every statement that has some. -/

namespace Sys2Proof.Tests

open Sys2Proof.Machine

/-- `[1,0,1,1]`, the Nibble of the source's scenario (95_test_vectors.md section 1.1). -/
def nibble1011 : Nibble := nibbleOf true false true true

/-- `[0,1,1,0,0,1,1]`, its codeword. -/
def codeword1011 : Codeword := codewordOf false true true false false true true

/-- The same with position 0 flipped. -/
def flipped1011 : Codeword := codewordOf true true true false false true true

/-- The same two as lists, element 0 first. -/
def nibbleList : List Bit := [true, false, true, true]
def codewordList : List Bit := [false, true, true, false, false, true, true]

/-- A small state whose ports hold an earlier response. -/
def busy : State := { req := 0x40D#11, out := ⟨false, 0#3, 0x66#7, 0#4⟩, draws := 3 }

/-! ### WellFormed: the one check refuses the ill-formed term -/

theorem test_wellFormed_refuses_exponent_3 : (Instr.parity 3#2 codeword1011).wellFormed = false := by decide
theorem test_wellFormed_takes_exponent_2 : (Instr.parity 2#2 codeword1011).wellFormed = true := by decide

/-! ### Decoding: words written out bit by bit from the patterns of R40 -/

theorem test_decode_parity_word : decodeTableWord 16 0b00011100111 = some (.parity 1#2 flipped1011) := by decide
theorem test_decode_parity_reserved_word :
    decodeTableWord 16 0b00111100110 = some (.parity 3#2 codeword1011) := by decide
theorem test_decode_syndrome_word : decodeTableWord 16 0b01001100111 = some (.syndrome flipped1011) := by decide
theorem test_decode_encode_word : decodeTableWord 16 0b10000001101 = some (.encode nibble1011) := by decide
theorem test_decode_decode_word : decodeTableWord 16 0b11001100111 = some (.decode flipped1011) := by decide
theorem test_decode_encode_ignored_bits : decodeTableWord 16 0x5FD = some (.encode nibble1011) := by decide
theorem test_decode_decode_ignored_exp : decodeTableWord 16 0x7E7 = some (.decode flipped1011) := by decide
theorem test_decode_rejects_wider_word : decodeWord 0x800 = .error (.widerThanRequest 0x800) := by rfl
theorem test_encode_parity_word : encodeReq (.parity 2#2 flipped1011) = 0x167#11 := by decide

/-! ### The four operations, by the worked examples -/

/-- 95_test_vectors.md section 2: `0x067`, position 0 flipped, `p = 0`, gives 1. -/
theorem test_parity_flipped : respond 0x067#11 busy = some ⟨true, 0#3, 0#7, 0#4⟩ := by decide
/-- R43: the reserved request leaves the other ports 0 and uses up a draw. -/
theorem test_parity_reserved_draws : exec (.parity 3#2 0x7F#7) busy =
    .next { busy with out := ⟨busy.freeBit, 0#3, 0#7, 0#4⟩, draws := 4 } := rfl
/-- R55: `SYNDROME [1,1,1,0,0,1,1] => 1`. -/
theorem test_syndrome_scenario : respond 0x267#11 busy = some ⟨false, 1#3, 0#7, 0#4⟩ := by decide
/-- 95_test_vectors.md section 3, row `0x26`: syndrome 7. -/
theorem test_syndrome_last_position : respond 0x226#11 busy = some ⟨false, 7#3, 0#7, 0#4⟩ := by decide
/-- R60: `ENCODE [1,0,1,1] => [0,1,1,0,0,1,1]`. -/
theorem test_encode_scenario : respond 0x40D#11 busy = some ⟨false, 0#3, 0x66#7, 0#4⟩ := by decide
/-- R65: `[0,0,0,1]` gives `0x4B`. -/
theorem test_encode_last_element : respond 0x408#11 busy = some ⟨false, 0#3, 0x4B#7, 0#4⟩ := by decide
/-- R66: `DECODE [1,1,1,0,0,1,1] => [1,0,1,1]`, corrected `0x66`, syndrome 1. -/
theorem test_decode_scenario : respond 0x667#11 busy = some ⟨false, 1#3, 0x66#7, 0xD#4⟩ := by decide
/-- Program 4 of 95_test_vectors.md: a double error is silently mis-corrected. -/
theorem test_decode_double_error : respond 0x627#11 busy = some ⟨false, 6#3, 0x07#7, 0x1#4⟩ := by decide

/-! ### The step and the ports -/

/-- R19: the ports answer a request from the moment it is driven. -/
theorem test_drive_answers_at_once : (State.reset.driveReq 0x40D#11).out = ⟨false, 0#3, 0x66#7, 0#4⟩ := by
  decide

theorem test_step_runs_fetched_word : step (State.reset.withFetchWord 16 0x40D) =
    .next { req := 0x40D#11, out := ⟨false, 0#3, 0x66#7, 0#4⟩, draws := 0 } := rfl

/-! ### The stream driver (95_test_vectors.md section 6) -/

/-- The bits of an outcome, for comparing. -/
def bitsOf (o : Host.Outcome (State × List Bit) Fault Refusal) : Option (List Bit) :=
  match o with
  | .next u => some u.2
  | _ => none

theorem test_encodeBits_drops_remainder : bitsOf (encodeBitsOn [true, false, true, true, true] busy) =
    some [false, true, true, false, false, true, true] := by decide
theorem test_decodeBits_corrects_and_drops :
    bitsOf (decodeBitsOn [true, true, true, false, false, true, true, false] busy) =
      some [true, false, true, true] := by decide
theorem test_encodeBytes_scenario : bitsOf (encodeBytesOn [0xAB#8] busy) =
    some [true, false, true, true, false, true, false, false, true, true, false, false, true, true] := by
  decide

/-! ### Witnesses: every statement's hypotheses can be met together -/

theorem witness_StepRunsTheDecodedRequest : decodeTableWord 16 0x7FF = some (.decode 0x7F#7) := by decide
theorem witness_IgnoredBitsDoNotReachTheResponse_encode :
    fieldOp 0x5FD#11 ≠ 0#2 ∧ fieldOp 0x40D#11 = fieldOp 0x5FD#11 ∧
      (if fieldOp 0x5FD#11 = 2#2 then fieldNibble 0x40D#11 = fieldNibble 0x5FD#11
       else fieldArg 0x40D#11 = fieldArg 0x5FD#11) := by decide
theorem witness_IgnoredBitsDoNotReachTheResponse_decode :
    fieldOp 0x7E7#11 ≠ 0#2 ∧ fieldOp 0x667#11 = fieldOp 0x7E7#11 ∧
      (if fieldOp 0x7E7#11 = 2#2 then fieldNibble 0x667#11 = fieldNibble 0x7E7#11
       else fieldArg 0x667#11 = fieldArg 0x7E7#11) := by decide
theorem witness_NothingEverStops : ∀ r ∈ [0x17F#11, 0x7E7#11], specified r = true := by decide
theorem witness_PortsFollowTheRequestWires : specified 0x17F#11 = true := by decide
theorem witness_PortsHoldNothingBeyondTheRequest :
    Reachable ((State.reset.driveReq 0x180#11).driveReq 0x667#11) ∧ Reachable (State.reset.driveReq 0x667#11) ∧
      (State.reset.driveReq 0x667#11).req = ((State.reset.driveReq 0x180#11).driveReq 0x667#11).req ∧
      specified ((State.reset.driveReq 0x180#11).driveReq 0x667#11).req = true :=
  ⟨.drive _ _ (.drive _ _ .reset), .drive _ _ .reset, rfl, rfl⟩
theorem witness_EvaluationFrame_decode : ∃ t, exec (.decode flipped1011) busy = .next t := ⟨_, rfl⟩
theorem witness_EvaluationFrame_reserved : ∃ t, exec (.parity 3#2 flipped1011) busy = .next t := ⟨_, rfl⟩
theorem witness_EvaluationFrame_encode : ∃ t, exec (.encode nibble1011) busy = .next t := ⟨_, rfl⟩
theorem witness_EvaluationFrame_syndrome : ∃ t, exec (.syndrome flipped1011) busy = .next t := ⟨_, rfl⟩
theorem witness_EveryStepSettlesThePorts : ∃ t, step (busy.driveReq 0x180#11) = .next t := ⟨_, rfl⟩
theorem witness_EveryStepKeepsPortsCoherent : ∃ t, step (busy.driveReq 0x627#11) = .next t := ⟨_, rfl⟩
theorem witness_HoldingASpecifiedRequestIsIdempotent :
    specified busy.req = true ∧ ∃ t, step busy = .next t := ⟨by decide, _, rfl⟩
theorem witness_ParityFacts : (6 : Nat) < 7 ∧ 3 ∉ group 0 := by decide
theorem witness_SyndromeFacts : valid codeword1011 = true := by decide
theorem witness_SourceLoopsAgreeAtLengthSeven : ([true] : List Bit).length ≠ 7 ∧ 3 ≤ 3 := by decide
theorem witness_EncodeFacts : hostEncode nibble1011 busy = hostEncode nibble1011 State.reset := by decide
theorem witness_ParityFillOrderIsImmaterial : ([2, 0, 1] : List (Fin 3)).Perm [0, 1, 2] ∧
    hostEncode nibble1011 busy = some codeword1011 := by decide
theorem witness_DecodeFacts : valid codeword1011 = true ∧ distance flipped1011 codeword1011 ≤ 1 := by decide
theorem witness_SingleErrorsAreCorrected : weight (flipAt 6) ≤ 1 ∧ (6 : Nat) < 7 := by decide
theorem witness_SyndromeNamesTheFlippedPosition :
    hostSyndrome codeword1011 busy = some 0#3 ∧ (6 : Nat) < 7 := by decide
theorem witness_MultipleErrorsAreNeverRecovered :
    2 ≤ weight (flipAt 0 ^^^ flipAt 6) ∧ (0 : Nat) < 7 ∧ (6 : Nat) < 7 ∧ (0 : Nat) ≠ 6 := by decide
theorem witness_MinimumDistanceIsThree : (0#4 : Nibble) ≠ 1#4 := by decide
theorem witness_EverySequenceFallsInOneClass : hostEncode nibble1011 busy = some codeword1011 := by decide
theorem witness_DecoderGuardIsDead_flips : ∃ d v syn,
    hostDecode flipped1011 busy = some (d, v, syn) ∧ syn ≠ 0#3 :=
  ⟨nibble1011, codeword1011, 1#3, by decide⟩
theorem witness_DecoderGuardIsDead_clean : ∃ d v,
    hostDecode codeword1011 busy = some (d, v, 0#3) := ⟨nibble1011, codeword1011, by decide⟩
theorem witness_OneBlockServesAsManyCopies :
    [busy, State.reset].length = [0x40D#11, 0x1FF#11].length ∧
      [0x40D#11, 0x1FF#11][0]? = some 0x40D#11 ∧ specified 0x40D#11 = true := by decide
theorem witness_ServingOrderIsImmaterial : [0x40D#11, 0x667#11].Perm [0x667#11, 0x40D#11] ∧
    ∀ r ∈ [0x667#11, 0x40D#11], specified r = true := by decide
theorem witness_EncodeBitsGroupByGroup : 0 < [true, false, true, true, true].length / 4 := by decide
theorem witness_DecodeBitsGroupByGroup :
    0 < [true, true, true, false, false, true, true, false].length / 7 := by decide
theorem witness_EncodeBytesByteByByte : 0 < [0xAB#8].length := by decide
theorem witness_StreamSurvivesOneErrorPerCodeword :
    [false, false, false, true, false, false, false].length = 7 * ([true, false, true, true].length / 4) ∧
    ∀ g < [true, false, true, true].length / 4,
      (([false, false, false, true, false, false, false].drop (7 * g)).take 7).count true ≤ 1 := by decide
theorem witness_BytesSurviveOneErrorPerCodeword :
    let errs := [false, false, false, true, false, false, false, false, false, true, false, false, false, false]
    errs.length = 14 * [0x5C#8].length ∧
    ∀ g < 2 * [0x5C#8].length, ((errs.drop (7 * g)).take 7).count true ≤ 1 := by decide
theorem witness_GroupOrderIsImmaterial_encodeBits :
    let op := StreamOp.encodeBits [true, false, true, true, true, true, false, false]
    [1, 0].Perm (List.range op.requests.length) ∧ op.size ≤ (List.replicate 14 false).length := by decide
theorem witness_GroupOrderIsImmaterial_decodeBits :
    let op := StreamOp.decodeBits (List.replicate 14 true)
    [1, 0].Perm (List.range op.requests.length) ∧ op.size ≤ (List.replicate 9 false).length := by decide
theorem witness_GroupOrderIsImmaterial_encodeBytes :
    let op := StreamOp.encodeBytes [0x5C#8]
    [1, 0].Perm (List.range op.requests.length) ∧ op.size ≤ (List.replicate 14 false).length := by decide
theorem witness_TooSmallBufferFailsFast :
    (List.replicate 6 false).length < (StreamOp.encodeBits nibbleList).size ∧
    (StreamOp.encodeBits nibbleList).size ≤ (List.replicate 7 false).length := by decide
theorem witness_TooSmallBufferFailsFast_bytes :
    (List.replicate 13 false).length < (StreamOp.encodeBytes [0xAB#8]).size ∧
    (StreamOp.encodeBytes [0xAB#8]).size ≤ (List.replicate 15 false).length := by decide

/-- Two calls whose output regions share elements 3 to 6. -/
def overlapping : List Call := [⟨.encodeBits nibbleList, 0, State.reset⟩, ⟨.encodeBits nibbleList, 3, busy⟩]

/-- Two calls whose output regions touch and share nothing. -/
def disjoint : List Call := [⟨.encodeBits nibbleList, 0, State.reset⟩, ⟨.decodeBits codewordList, 7, busy⟩]

/-- R79: a buffer too small for groups in another order is a fault, not a partial result. -/
theorem test_fill_too_small : (match fillInto (.encodeBits (nibbleList ++ nibbleList)) [1, 0] [] busy with
    | .error e => some e
    | .ok _ => none) = some .bufferTooSmall := by decide

theorem witness_ConcurrentCalls_too_small :
    ∃ call ∈ overlapping, (List.replicate 9 false).length < call.offset + call.op.size := by decide
theorem witness_ConcurrentCalls_fits :
    (∀ call ∈ overlapping, call.offset + call.op.size ≤ (List.replicate 10 false).length) ∧
    (∃ call ∈ overlapping, call.covers 3 = true) ∧ (∃ call ∈ overlapping, call.covers 9 = true) := by decide
theorem witness_ConcurrentCalls_untouched :
    (∀ call ∈ overlapping, call.offset + call.op.size ≤ (List.replicate 11 false).length) ∧
    ∀ call ∈ overlapping, call.covers 10 = false := by decide
theorem witness_DisjointOutputsDoNotRace :
    disjoint.Pairwise (fun a b => ∀ k, a.covers k = true → b.covers k = false) := by
  have h : (StreamOp.encodeBits nibbleList).size = 7 := by decide
  simp [disjoint, Call.covers, h]
  omega

/-- The contested elements 3 to 6 from the second call. -/
theorem witness_EveryWriterOfAContestedElementMayWin :
    ∃ (want : List Bit) (us : List (State × List Bit)),
      (∀ call ∈ overlapping, call.offset + call.op.size ≤ (List.replicate 10 false).length) ∧
      List.Forall₂ (fun call u => streamOn call.op call.block = .next u) overlapping us ∧
      want.length = (List.replicate 10 false).length ∧
      ∀ k < (List.replicate 10 false).length,
        ((∀ call ∈ overlapping, call.covers k = false) ∧ want[k]? = (List.replicate 10 false)[k]?) ∨
        ∃ call u, (call, u) ∈ overlapping.zip us ∧ call.covers k = true ∧
          want[k]? = u.2[k - call.offset]? := by
  refine ⟨[false, true, true] ++ codewordList, [(⟨0x40D#11, ⟨false, 0#3, 0x66#7, 0#4⟩, 0⟩, codewordList),
    (⟨0x40D#11, ⟨false, 0#3, 0x66#7, 0#4⟩, 3⟩, codewordList)], by decide, ?_, by decide, ?_⟩
  · exact .cons rfl (.cons rfl .nil)
  · intro k hk
    refine .inr ?_
    have hk' : k < 10 := by simpa using hk
    by_cases h3 : k < 3
    · refine ⟨⟨.encodeBits nibbleList, 0, State.reset⟩, _, .head _, ?_, ?_⟩ <;>
        (interval_cases k <;> decide)
    · refine ⟨⟨.encodeBits nibbleList, 3, busy⟩, _, .tail _ (.head _), ?_, ?_⟩ <;>
        (interval_cases k <;> decide)

end Sys2Proof.Tests
end

section
/-! R14, R55 to R57: what a SYNDROME request answers, and on which codewords the answer is 0. -/

namespace Sys2Proof.Machine

/-! ### Issuing a SYNDROME request -/

/-- The `arg` field of a packed request is the packed operand (R38). -/
@[simp] theorem fieldArg_packRequest (op exp : BitVec 2) (arg : Codeword) :
    fieldArg (packRequest op exp arg) = arg := by
  ext k hk
  have h9 : k < 9 := by omega
  have h11 : k < 11 := by omega
  simp [fieldArg, packRequest, hk, h9, h11]

/-- A SYNDROME request decodes to the operation it encodes. -/
@[simp] theorem decodeReq_encodeReq_syndrome (c : Codeword) :
    decodeReq (encodeReq (.syndrome c)) = .syndrome c := by
  have h10 : (packRequest 1#2 0#2 c)[10] = false := by simp [packRequest]
  have h9 : (packRequest 1#2 0#2 c)[9] = true := by simp [packRequest]
  simp [encodeReq, decodeReq, h10, h9]

/-- The block answers a SYNDROME request, in any state, with the syndrome of its operand (R55). -/
@[simp] theorem hostSyndrome_eq (c : Codeword) (s : State) : hostSyndrome c s = some (syndrome c) := by
  simp [hostSyndrome, respond_eq, responseOf]

/-! ### Parities and the bits of the syndrome -/

/-- R52: the parity of exponent 0, written out. -/
theorem parity_zero_eq (cw : Codeword) : parity cw 0 = (cw[0] ^^ cw[2] ^^ cw[4] ^^ cw[6]) := by
  simp [parity, group_eq.1, xorOver, BitVec.getLsbD_eq_getElem]

/-- R52: the parity of exponent 1, written out. -/
theorem parity_one_eq (cw : Codeword) : parity cw 1 = (cw[1] ^^ cw[2] ^^ cw[5] ^^ cw[6]) := by
  simp [parity, group_eq.2.1, xorOver, BitVec.getLsbD_eq_getElem]

/-- R52: the parity of exponent 2, written out. -/
theorem parity_two_eq (cw : Codeword) : parity cw 2 = (cw[3] ^^ cw[4] ^^ cw[5] ^^ cw[6]) := by
  simp [parity, group_eq.2.2, xorOver, BitVec.getLsbD_eq_getElem]

/-- R56: one round of the accumulator, "if the result is 1, sets bit p", bit by bit. -/
theorem getLsbD_ite_setBit_true {w : Nat} (v : BitVec w) (p : Fin w) (j : Nat) (b : Bit) :
    (if b then setBit v p true else v).getLsbD j = (v.getLsbD j || (b && decide (j = p))) := by
  cases b with
  | false => simp
  | true =>
    rw [if_pos rfl, getLsbD_setBit v p j true p.isLt]
    by_cases hj : j = p <;> simp [hj]

/-- R57: bit `p` of the syndrome is the parity of exponent `p`. -/
theorem getLsbD_syndrome (c : Codeword) (p : Fin 3) : (syndrome c).getLsbD p = parity c p := by
  simp only [syndrome, List.foldl_cons, List.foldl_nil, getLsbD_ite_setBit_true]
  fin_cases p <;> simp

/-- The syndrome is 0 exactly when every parity is. -/
theorem syndrome_eq_zero_iff (c : Codeword) : syndrome c = 0#3 ↔ ∀ p, parity c p = false := by
  constructor
  · intro h p
    simp [← getLsbD_syndrome, h]
  · intro h
    refine BitVec.eq_of_getLsbD_eq fun i hi => ?_
    simpa [h] using getLsbD_syndrome c ⟨i, hi⟩

/-- R14: the syndrome is 0 exactly on the valid codewords. -/
theorem syndrome_eq_zero_iff_valid (c : Codeword) : syndrome c = 0#3 ↔ valid c = true := by
  rw [syndrome_eq_zero_iff, valid_iff, Fin.forall_fin_succ, Fin.forall_fin_two]
  rfl

/-- R5, R54(a): the parity position `2^p - 1` belongs to its own group. -/
theorem parityPos_mem_group (p : Fin 3) : parityPos p ∈ group p := by
  revert p; decide

/-- Settles O21: the answer is the syndrome, whose bits are the three parities written out. -/
theorem syndromeZeroExactlyOnValid : Obligations.SyndromeZeroExactlyOnValid := by
  intro cw s
  have hvalid := syndrome_eq_zero_iff_valid cw
  refine ⟨syndrome cw, hostSyndrome_eq cw s, ?_, hvalid.symm, parityPos_mem_group⟩
  rw [hvalid, valid_iff, parity_zero_eq, parity_one_eq, parity_two_eq]

end Sys2Proof.Machine
end

section
/-! R31, R50: what a PARITY request answers, and the syndrome as three such answers packed into an integer. -/

namespace Sys2Proof.Machine

/-! ### Issuing a PARITY request -/

/-- The `exp` field of a packed request is the packed exponent (R38). -/
@[simp] theorem fieldExp_packRequest (op exp : BitVec 2) (arg : Codeword) :
    fieldExp (packRequest op exp arg) = exp := by
  ext k hk
  have h9 : 7 + k < 9 := by omega
  have h11 : 7 + k < 11 := by omega
  simp [fieldExp, packRequest, hk, h9, h11]

/-- A PARITY request decodes to the operation it encodes, the reserved exponent included. -/
@[simp] theorem decodeReq_encodeReq_parity (exp : BitVec 2) (c : Codeword) :
    decodeReq (encodeReq (.parity exp c)) = .parity exp c := by
  have h10 : (packRequest 0#2 exp c)[10] = false := by simp [packRequest]
  have h9 : (packRequest 0#2 exp c)[9] = false := by simp [packRequest]
  simp [encodeReq, decodeReq, h10, h9]

/-- The block answers a PARITY request with a legal exponent, in any state, with the parity of its
operand (R50). -/
@[simp] theorem hostParity_ofNat (p : Fin 3) (c : Codeword) (s : State) :
    hostParity (BitVec.ofNat 2 p) c s = some (parity c p) := by
  simp [hostParity, respond_eq, responseOf, exponent?_ofNat]

/-! ### The syndrome as an integer -/

/-- A PARITY request for exponent `p` answers bit `p` of the syndrome, whatever the state. -/
theorem hostParity_eq_syndrome_bit (p : Fin 3) (c : Codeword) (s : State) :
    hostParity (BitVec.ofNat 2 p) c s = some (syndrome c)[p] := by
  rw [hostParity_ofNat, ← getLsbD_syndrome]
  rfl

/-- R31: the integer on three wires is the weighted sum of its bits. -/
theorem toNat_eq_weighted_bits (v : Syndrome) :
    v.toNat = v[0].toNat + 2 * v[1].toNat + 4 * v[2].toNat := by
  revert v; decide

/-- Settles O23: each PARITY request answers its bit of the syndrome, and the integer packs the three. -/
theorem syndromePacksThreeParityRequests : Obligations.SyndromePacksThreeParityRequests := by
  intro cw s s0 s1 s2
  exact ⟨syndrome cw, hostSyndrome_eq cw s, hostParity_eq_syndrome_bit 0 cw s0,
    hostParity_eq_syndrome_bit 1 cw s1, hostParity_eq_syndrome_bit 2 cw s2,
    toNat_eq_weighted_bits (syndrome cw)⟩

end Sys2Proof.Machine
end

section
/-! R38, R40, R45: which operation a request decodes to, read from its fields. -/

namespace Sys2Proof

/-- R38: the operation field on its two wires. -/
theorem fieldOp_eq_iff (r : Request) (op : BitVec 2) : fieldOp r = op ↔ r[10] = op[1] ∧ r[9] = op[0] := by
  constructor
  · rintro rfl
    simp [fieldOp, BitVec.getLsbD_eq_getElem]
  · rintro ⟨h10, h9⟩
    ext k hk
    obtain rfl | rfl : k = 0 ∨ k = 1 := by omega
    · simpa [fieldOp, BitVec.getLsbD_eq_getElem] using h9
    · simpa [fieldOp, BitVec.getLsbD_eq_getElem] using h10

/-- R40, R45: the four rows of the operation table, each with the operation its requests decode to. -/
theorem decodeReq_cases (r : Request) :
    (fieldOp r = 0#2 ∧ decodeReq r = .parity (fieldExp r) (fieldArg r)) ∨
    (fieldOp r = 1#2 ∧ decodeReq r = .syndrome (fieldArg r)) ∨
    (fieldOp r = 2#2 ∧ decodeReq r = .encode (fieldNibble r)) ∨
    (fieldOp r = 3#2 ∧ decodeReq r = .decode (fieldArg r)) := by
  cases h10 : r[10] <;> cases h9 : r[9] <;> simp [fieldOp_eq_iff, decodeReq, h10, h9]

end Sys2Proof
end

section
/-! R19, R41: the response an evaluation drives is the one the operation table gives to the request. -/

namespace Sys2Proof.Machine

/-- R41, R43: the operation table's response settles the ports, whichever Bit the reserved request drew. -/
theorem settled_responseOf (r : Request) (drawn : Bit) (n : Nat) :
    settled { req := r, out := responseOf (decodeReq r) drawn, draws := n } = true := by
  obtain ⟨hop, hdec⟩ | ⟨hop, hdec⟩ | ⟨hop, hdec⟩ | ⟨hop, hdec⟩ := decodeReq_cases r
  · cases hexp : exponent? (fieldExp r) <;> simp [settled, responseOf, hop, hdec, hexp]
  · simp [settled, responseOf, hop, hdec]
  · simp [settled, responseOf, hop, hdec]
  · simp [settled, responseOf, hop, hdec, decodeNibble]

/-- Settles O17: a step drives the operation table's response to the request it holds. -/
theorem everyStepSettlesThePorts : Obligations.EveryStepSettlesThePorts := by
  intro s t hstep
  rw [step_eq] at hstep
  cases hstep
  exact ⟨settled_responseOf s.req s.freeBit _, rfl⟩

end Sys2Proof.Machine
end

section
/-! R42: the ignored bits of a request reach neither its operation nor its response. -/

namespace Sys2Proof.Machine

/-- R42: a request that is no PARITY decodes by its operation and the operand bits of that operation. -/
theorem decodeReq_congr {r r' : Request} (hop : fieldOp r ≠ 0#2) (hsame : fieldOp r' = fieldOp r)
    (hoperand : if fieldOp r = 2#2 then fieldNibble r' = fieldNibble r else fieldArg r' = fieldArg r) :
    decodeReq r' = decodeReq r := by
  have hcases := decodeReq_cases r'
  rw [hsame] at hcases
  obtain ⟨h, hdec⟩ | ⟨h, hdec⟩ | ⟨h, hdec⟩ | ⟨h, hdec⟩ := decodeReq_cases r
  · exact absurd h hop
  · have harg : fieldArg r' = fieldArg r := by simpa [h] using hoperand
    simpa [h, hdec, harg] using hcases
  · have hnibble : fieldNibble r' = fieldNibble r := by simpa [h] using hoperand
    simpa [h, hdec, hnibble] using hcases
  · have harg : fieldArg r' = fieldArg r := by simpa [h] using hoperand
    simpa [h, hdec, harg] using hcases

/-- R43: only PARITY has a reserved request. -/
theorem specified_of_fieldOp_ne_zero {r : Request} (hop : fieldOp r ≠ 0#2) : specified r = true := by
  obtain ⟨h, _⟩ | ⟨_, hdec⟩ | ⟨_, hdec⟩ | ⟨_, hdec⟩ := decodeReq_cases r
  · exact absurd h hop
  · simp [specified, hdec, Instr.wellFormed]
  · simp [specified, hdec, Instr.wellFormed]
  · simp [specified, hdec, Instr.wellFormed]

/-- Settles O8: both requests decode to one operation, whose response looks at no drawn Bit. -/
theorem ignoredBitsDoNotReachTheResponse : Obligations.IgnoredBitsDoNotReachTheResponse := by
  intro r r' s s' hop hsame harg
  refine ⟨_, respond_eq r s, ?_⟩
  rw [respond_eq, decodeReq_congr hop hsame harg,
    responseOf_wellFormed _ (specified_of_fieldOp_ne_zero hop)]

end Sys2Proof.Machine
end

section
/-! R44: the request space counted. A request's operation is its value divided by 512 (R38), so all counts
but that of a single Nibble's copies are lengths of intervals. -/

namespace Sys2Proof.Machine

/-! ### The fields of a request as numbers (R38) -/

theorem toNat_fieldOp (r : Request) : (fieldOp r).toNat = r.toNat / 512 := by
  have hr := r.isLt
  simp only [fieldOp, BitVec.extractLsb'_toNat, Nat.shiftRight_eq_div_pow]
  omega

theorem toNat_fieldExp (r : Request) : (fieldExp r).toNat = r.toNat / 128 % 4 := by
  simp [fieldExp, Nat.shiftRight_eq_div_pow]

theorem toNat_fieldNibble (r : Request) : (fieldNibble r).toNat = r.toNat % 16 := by
  simp [fieldNibble]

/-- The values of an operation field are an interval of 512. -/
theorem fieldOp_eq_iff_toNat (r : Request) (op : BitVec 2) :
    fieldOp r = op ↔ 512 * op.toNat ≤ r.toNat ∧ r.toNat < 512 * op.toNat + 512 := by
  rw [← BitVec.toNat_inj, toNat_fieldOp]
  omega

/-! ### Which values an operation has -/

/-- R40: the row of the operation table that an operation field numbers. -/
def rowOf (op : BitVec 2) : OpRow := opTable[op.toNat]'op.isLt

/-- The rows' mnemonics are distinct. -/
theorem rowOf_mnemonic_inj : ∀ op op' : BitVec 2, (rowOf op).mnemonic = (rowOf op').mnemonic ↔ op = op' := by
  decide

/-- R40: a request decodes to the operation of the row that its operation field numbers. -/
theorem mnemonic_decodeReq (r : Request) : (decodeReq r).mnemonic = (rowOf (fieldOp r)).mnemonic := by
  obtain ⟨hop, hdec⟩ | ⟨hop, hdec⟩ | ⟨hop, hdec⟩ | ⟨hop, hdec⟩ := decodeReq_cases r
  all_goals rw [hop, hdec]; rfl

/-- R40: the values of a row of the operation table. -/
theorem mnemonic_decodeReq_eq_iff (r : Request) (op : BitVec 2) :
    (decodeReq r).mnemonic = (rowOf op).mnemonic ↔
      512 * op.toNat ≤ r.toNat ∧ r.toNat < 512 * op.toNat + 512 := by
  rw [mnemonic_decodeReq, rowOf_mnemonic_inj, fieldOp_eq_iff_toNat]

/-- The values of the PARITY requests. -/
theorem mnemonic_decodeReq_eq_parity_iff (r : Request) :
    (decodeReq r).mnemonic = "PARITY" ↔ r.toNat < 512 :=
  (mnemonic_decodeReq_eq_iff r 0#2).trans (by simp)

/-- R43: only PARITY with exponent 3 is reserved. -/
theorem specified_eq_false_iff (r : Request) :
    specified r = false ↔ fieldOp r = 0#2 ∧ fieldExp r = 3#2 := by
  obtain ⟨hop, hdec⟩ | ⟨hop, hdec⟩ | ⟨hop, hdec⟩ | ⟨hop, hdec⟩ := decodeReq_cases r
  all_goals simp [specified, hdec, hop, Instr.wellFormed]

/-- R43, R44: the values of the reserved requests. -/
theorem specified_eq_false_iff_toNat (r : Request) :
    specified r = false ↔ 384 ≤ r.toNat ∧ r.toNat < 512 := by
  rw [specified_eq_false_iff, fieldOp_eq_iff_toNat, ← BitVec.toNat_inj, toNat_fieldExp]
  simp only [BitVec.toNat_ofNat]
  omega

/-- R40, R42: the values that decode to ENCODE of one Nibble. -/
theorem decodeReq_eq_encode_iff (r : Request) (d : Nibble) :
    decodeReq r = .encode d ↔ r.toNat / 512 = 2 ∧ r.toNat % 16 = d.toNat := by
  have hfields : decodeReq r = .encode d ↔ fieldOp r = 2#2 ∧ fieldNibble r = d := by
    obtain ⟨hop, hdec⟩ | ⟨hop, hdec⟩ | ⟨hop, hdec⟩ | ⟨hop, hdec⟩ := decodeReq_cases r
    all_goals simp [hop, hdec]
  rw [hfields, ← BitVec.toNat_inj, ← BitVec.toNat_inj, toNat_fieldOp, toNat_fieldNibble]
  rfl

/-! ### Counting -/

/-- The 2048 request values. -/
def allRequests : List Request := (List.range 2048).map (BitVec.ofNat 11)

/-- A property of the request's value is counted over the numbers below 2048. -/
theorem countP_allRequests {P : Request → Prop} [DecidablePred P] (Q : Nat → Prop) [DecidablePred Q]
    (hPQ : ∀ r, P r ↔ Q r.toNat) :
    allRequests.countP (fun r => P r) = ((Finset.range 2048).filter Q).card := by
  rw [← Nat.count_eq_card_filter_range, Nat.count, allRequests, List.countP_map]
  refine List.countP_congr fun n hn => ?_
  have hn' : n % 2048 = n := Nat.mod_eq_of_lt (List.mem_range.mp hn)
  simp [hPQ, hn']

/-- Requests that fill an interval of values are as many as it is long. -/
theorem countP_allRequests_of_interval {P : Request → Prop} [DecidablePred P] (a n : Nat)
    (hbound : a + n ≤ 2048) (hP : ∀ r, P r ↔ a ≤ r.toNat ∧ r.toNat < a + n) :
    allRequests.countP (fun r => P r) = n := by
  have hinterval : (Finset.range 2048).filter (fun k => a ≤ k ∧ k < a + n) = Finset.Ico a (a + n) := by
    ext k
    simp only [Finset.mem_filter, Finset.mem_range, Finset.mem_Ico]
    omega
  rw [countP_allRequests (fun k => a ≤ k ∧ k < a + n) hP, hinterval, Nat.card_Ico, Nat.add_sub_cancel_left]

/-- R44: each row of the operation table has a quarter of the request space. -/
theorem countP_mnemonic (op : BitVec 2) :
    allRequests.countP (fun r => (decodeReq r).mnemonic = (rowOf op).mnemonic) = 512 :=
  countP_allRequests_of_interval (512 * op.toNat) 512 (by omega) (mnemonic_decodeReq_eq_iff · op)

/-- R44: the defined PARITY requests. -/
theorem countP_parity_specified :
    allRequests.countP (fun r => (decodeReq r).mnemonic = "PARITY" ∧ specified r = true) = 384 := by
  refine countP_allRequests_of_interval 0 384 (by omega) fun r => ?_
  rw [mnemonic_decodeReq_eq_parity_iff, ← Bool.not_eq_false, specified_eq_false_iff_toNat]
  omega

/-- R44: the reserved PARITY requests. -/
theorem countP_parity_reserved :
    allRequests.countP (fun r => (decodeReq r).mnemonic = "PARITY" ∧ specified r = false) = 128 := by
  refine countP_allRequests_of_interval 384 128 (by omega) fun r => ?_
  rw [mnemonic_decodeReq_eq_parity_iff, specified_eq_false_iff_toNat]
  omega

/-- R44: each Nibble has 32 ENCODE requests, the `m`-th with `m` on the five ignored bits. -/
theorem countP_encode (d : Nibble) : allRequests.countP (fun r => decodeReq r = .encode d) = 32 := by
  have hd := d.isLt
  rw [countP_allRequests (fun n => n / 512 = 2 ∧ n % 16 = d.toNat) (decodeReq_eq_encode_iff · d),
    ← Finset.card_range 32]
  refine Finset.card_nbij' (fun n => (n - 1024) / 16) (fun m => 1024 + 16 * m + d.toNat) ?_ ?_ ?_ ?_
  all_goals
    intro n hn
    simp only [Finset.mem_coe, Finset.mem_filter, Finset.mem_range] at hn ⊢
    omega

/-- Settles O5: the operations' values are intervals of the request space, and every request is answered. -/
theorem requestSpaceCounts : Obligations.RequestSpaceCounts :=
  ⟨countP_parity_specified, countP_parity_reserved, countP_mnemonic 1#2, countP_mnemonic 2#2,
    countP_encode, countP_mnemonic 3#2, fun r s => ⟨_, respond_eq r s⟩⟩

end Sys2Proof.Machine
end

section
/-! R50, R52: what a PARITY operation with a legal exponent does, and which positions its group holds. -/

namespace Sys2Proof.Machine

/-- R50: with a legal exponent PARITY drives the parity of its operand on `par_out`, 0 on the other ports,
and changes nothing else. -/
theorem exec_parity_ofNat (p : Fin 3) (cw : Codeword) (s : State) :
    exec (.parity (BitVec.ofNat 2 p) cw) s = .next { s with out := ⟨parity cw p, 0#3, 0#7, 0#4⟩ } := by
  have hexec : exec (.parity (BitVec.ofNat 2 p) cw) s = execParity (BitVec.ofNat 2 p) cw s := rfl
  rw [hexec, execParity, exponent?_ofNat]
  rfl

/-- R51: the mask test `(i+1) & 2^p != 0` reads binary digit `p` of `i + 1`. -/
theorem inGroup_eq_testBit (p i : Nat) : inGroup p i = (i + 1).testBit p := by
  rw [inGroup, mask, Nat.and_two_pow]
  cases (i + 1).testBit p <;> simp

/-- R52: the group of `p` holds the codeword positions whose 1-based number has binary digit `p` set. -/
theorem mem_group_iff (p : Fin 3) (i : Nat) : i ∈ group p ↔ i < 7 ∧ (i + 1).testBit p = true := by
  rw [group, List.mem_filter, List.mem_range, inGroup_eq_testBit]

/-- Settles O9: PARITY answers with the parity of its operand, which each exponent's group writes out. -/
theorem parityDrivesTheGroupXor : Obligations.ParityDrivesTheGroupXor := by
  intro cw s
  rw [← parity_zero_eq, ← parity_one_eq, ← parity_two_eq]
  exact ⟨exec_parity_ofNat 0 cw s, exec_parity_ofNat 1 cw s, exec_parity_ofNat 2 cw s, mem_group_iff⟩

end Sys2Proof.Machine
end

section
/-! R54: the five facts about `parity`. -/

namespace Sys2Proof.Machine

/-- R5: the 1-based parity position of `p` is `2^p`. -/
theorem parityPos_add_one (p : Nat) : parityPos p + 1 = 2 ^ p :=
  Nat.sub_add_cancel Nat.one_le_two_pow

/-- R54(a), (b): position `2^q` has the one binary digit `q`, so it stands in the group of `q` alone. -/
theorem parityPos_mem_group_iff (p q : Fin 3) : parityPos q ∈ group p ↔ q = p := by
  have hrange : parityPos q < 7 := ((mem_group_iff q _).mp (parityPos_mem_group q)).1
  rw [mem_group_iff, parityPos_add_one, Nat.testBit_two_pow, decide_eq_true_iff, Fin.val_inj]
  exact and_iff_right hrange

/-- The XOR over a set of positions depends on the bits at these positions only. -/
theorem xorOver_congr {a b : Codeword} {is : List Nat} (h : ∀ i ∈ is, a.getLsbD i = b.getLsbD i) :
    xorOver a is = xorOver b is :=
  List.foldr_ext _ _ false fun i hi acc => by rw [h i hi]

/-- A single 1 is seen by the sets of positions that contain it. -/
theorem xorOver_flipAt {is : List Nat} (hnodup : is.Nodup) {i : Nat} (hi : i < 7) :
    xorOver (flipAt i) is = decide (i ∈ is) := by
  induction is with
  | nil => rfl
  | cons j is ih =>
    obtain ⟨hj, his⟩ := List.nodup_cons.mp hnodup
    have hcons : xorOver (flipAt i) (j :: is) = (decide (i = j) ^^ decide (i ∈ is)) := by
      rw [← ih his]
      simp [xorOver, flipAt, BitVec.getLsbD_twoPow, hi]
    rw [hcons]
    by_cases hij : i = j
    · simp [hij, hj]
    · simp [hij]

/-- R54(d): the parity of a single 1 at `i` is binary digit `p` of `i + 1`. -/
theorem parity_flipAt (p : Fin 3) {i : Nat} (hi : i < 7) :
    parity (flipAt i) p = (i + 1).testBit p := by
  have hnodup : (group p).Nodup := List.nodup_range.filter _
  rw [parity, xorOver_flipAt hnodup hi, Bool.eq_iff_iff, decide_eq_true_iff, mem_group_iff]
  exact and_iff_right hi

/-- R54(e): replacing a bit outside the group leaves the parity as it was. -/
theorem parity_setBit_of_notMem (p : Fin 3) (cw : Codeword) {j : Nat} (b : Bit) (hj : j < 7)
    (hout : j ∉ group p) : parity (setBit cw j b) p = parity cw p := by
  refine xorOver_congr fun i hi => ?_
  have hij : i ≠ j := ne_of_mem_of_not_mem hi hout
  rw [getLsbD_setBit cw j i b hj, if_neg hij]

/-- Settles O20: a PARITY request answers the parity of its operand in every state, so the facts about
`parity` are facts about the answers. -/
theorem parityFacts : Obligations.ParityFacts := by
  refine ⟨parityPos_mem_group_iff, fun p s s' s'' =>
    ⟨fun a b => ?_, fun i hi => ?_, fun cw j b hj hout => ?_⟩⟩
  · exact ⟨parity a p, parity b p, hostParity_ofNat p a s, hostParity_ofNat p b s',
      by rw [hostParity_ofNat, parity_xor]⟩
  · rw [hostParity_ofNat, parity_flipAt p hi]
  · rw [hostParity_ofNat, hostParity_ofNat, parity_setBit_of_notMem p cw b hj hout]

end Sys2Proof.Machine
end


section
/-! R55, R57: what a SYNDROME operation does. -/

namespace Sys2Proof.Machine

/-- R57: the three wires of the syndrome, each with its check written out. -/
theorem syndrome_bits_eq (cw : Codeword) :
    (syndrome cw)[0] = (cw[0] ^^ cw[2] ^^ cw[4] ^^ cw[6]) ∧
    (syndrome cw)[1] = (cw[1] ^^ cw[2] ^^ cw[5] ^^ cw[6]) ∧
    (syndrome cw)[2] = (cw[3] ^^ cw[4] ^^ cw[5] ^^ cw[6]) := by
  rw [← parity_zero_eq, ← parity_one_eq, ← parity_two_eq]
  exact ⟨getLsbD_syndrome cw 0, getLsbD_syndrome cw 1, getLsbD_syndrome cw 2⟩

/-- Settles O11: SYNDROME drives the syndrome, whose wires are the three checks and whose value is their
weighted sum. -/
theorem syndromeDrivesTheThreeChecks : Obligations.SyndromeDrivesTheThreeChecks := by
  intro cw s
  obtain ⟨h0, h1, h2⟩ := syndrome_bits_eq cw
  refine ⟨syndrome cw, exec_eq (.syndrome cw) s, h0, h1, h2, ?_⟩
  rw [← h0, ← h1, ← h2]
  exact toNat_eq_weighted_bits (syndrome cw)

end Sys2Proof.Machine
end

section
/-! R59: the five facts about the syndrome. -/

namespace Sys2Proof.Machine

/-! ### Linearity -/

/-- R57: a value whose bits are the three parities is the syndrome. -/
theorem eq_syndrome_of_bits {v : Syndrome} {cw : Codeword}
    (hbits : ∀ p : Fin 3, v.getLsbD p = parity cw p) : v = syndrome cw :=
  BitVec.eq_of_getLsbD_eq fun j hj => (hbits ⟨j, hj⟩).trans (getLsbD_syndrome cw ⟨j, hj⟩).symm

/-- R59(b): the syndrome is linear, because each parity is. -/
theorem syndrome_xor (a b : Codeword) : syndrome (a ^^^ b) = syndrome a ^^^ syndrome b := by
  refine (eq_syndrome_of_bits fun p => ?_).symm
  rw [BitVec.getLsbD_xor, getLsbD_syndrome, getLsbD_syndrome, parity_xor]

/-- R59(c): the syndrome of a valid codeword plus an error is the error's. -/
theorem syndrome_channel_of_valid {v : Codeword} (e : Codeword) (hv : valid v = true) :
    syndrome (channel v e) = syndrome e := by
  rw [channel, syndrome_xor, (syndrome_eq_zero_iff_valid v).mpr hv, BitVec.zero_xor]

/-! ### The closed form -/

/-- The XOR over a set of positions, one position at a time. -/
theorem xorOver_cons (cw : Codeword) (i : Nat) (is : List Nat) :
    xorOver cw (i :: is) = (cw.getLsbD i ^^ xorOver cw is) := rfl

/-- R59(a): bit `p` of the XOR of the 1-based numbers of the set positions in a list is the XOR over the
positions of the list whose number has binary digit `p`, which are those in the group of `p`. -/
theorem getLsbD_foldl_xor_positions (cw : Codeword) (p : Fin 3) (is : List Nat) (acc : Syndrome) :
    ((is.filter cw.getLsbD).foldl (fun acc i => acc ^^^ BitVec.ofNat 3 (i + 1)) acc).getLsbD p =
      (acc.getLsbD p ^^ xorOver cw (is.filter (inGroup p))) := by
  induction is generalizing acc with
  | nil => simp [xorOver]
  | cons i is ih =>
    have hdigit : (BitVec.ofNat 3 (i + 1)).getLsbD p = inGroup p i := by
      rw [inGroup_eq_testBit, BitVec.getLsbD_ofNat, decide_eq_true p.isLt, Bool.true_and]
    cases hset : cw.getLsbD i <;> cases hin : inGroup p i
    all_goals
      simp only [List.filter_cons, hset, hin, reduceIte, Bool.false_eq_true, List.foldl_cons, ih,
        BitVec.getLsbD_xor, hdigit, xorOver_cons, Bool.false_xor, Bool.xor_false, Bool.xor_assoc]

/-- R59(a): the syndrome is the XOR of the 1-based numbers of the set positions. -/
theorem syndrome_eq_foldl_xor (cw : Codeword) : syndrome cw =
    ((List.range 7).filter cw.getLsbD).foldl (fun acc i => acc ^^^ BitVec.ofNat 3 (i + 1)) 0#3 := by
  refine (eq_syndrome_of_bits fun p => ?_).symm
  rw [getLsbD_foldl_xor_positions, BitVec.getLsbD_zero, Bool.false_xor]
  rfl

/-! ### Counting the operands of a value -/

/-- The 128 operands. -/
def allCodewords : List Codeword := (List.range 128).map (BitVec.ofNat 7)

theorem mem_allCodewords (cw : Codeword) : cw ∈ allCodewords :=
  List.mem_map.mpr ⟨cw.toNat, List.mem_range.mpr cw.isLt, by simp⟩

theorem nodup_allCodewords : allCodewords.Nodup := by
  refine List.nodup_range.map_on fun m hm n hn heq => ?_
  have hmod : m % 128 = n % 128 := by simpa using congrArg BitVec.toNat heq
  rwa [Nat.mod_eq_of_lt (List.mem_range.mp hm), Nat.mod_eq_of_lt (List.mem_range.mp hn)] at hmod

/-- Adding a fixed error to every operand permutes the operands. -/
theorem map_xor_allCodewords_perm (e : Codeword) : (allCodewords.map (e ^^^ ·)).Perm allCodewords := by
  have hcancel (cw : Codeword) : e ^^^ (e ^^^ cw) = cw := by
    rw [← BitVec.xor_assoc, BitVec.xor_self, BitVec.zero_xor]
  have hnodup : (allCodewords.map (e ^^^ ·)).Nodup :=
    nodup_allCodewords.map (Function.LeftInverse.injective hcancel)
  refine (List.perm_ext_iff_of_nodup hnodup nodup_allCodewords).mpr fun cw => ?_
  exact iff_of_true (List.mem_map.mpr ⟨_, mem_allCodewords _, hcancel cw⟩) (mem_allCodewords cw)

/-- Every value is the syndrome of some operand: the value's own bits at the three parity positions. -/
theorem exists_syndrome_eq (syn : Syndrome) : ∃ e : Codeword, syndrome e = syn := by
  refine ⟨codewordOf syn[0] syn[1] false syn[2] false false false, ?_⟩
  revert syn; decide

/-- 16 of the operands are valid. -/
theorem countP_syndrome_eq_zero : allCodewords.countP (fun cw => syndrome cw = 0#3) = 16 := by
  decide

/-- R59(d): adding an error with a given syndrome carries the operands with syndrome 0 to the operands with
that syndrome, so there are as many of these as of those. -/
theorem countP_syndrome_eq (syn : Syndrome) :
    allCodewords.countP (fun cw => syndrome cw = syn) = 16 := by
  obtain ⟨e, rfl⟩ := exists_syndrome_eq syn
  have hshift (cw : Codeword) : syndrome (e ^^^ cw) = syndrome e ↔ syndrome cw = 0#3 := by
    rw [syndrome_xor, ← BitVec.xor_right_inj (syndrome e) (x := syndrome cw), BitVec.xor_zero]
  calc allCodewords.countP (fun cw => syndrome cw = syndrome e)
    _ = (allCodewords.map (e ^^^ ·)).countP (fun cw => syndrome cw = syndrome e) :=
      ((map_xor_allCodewords_perm e).countP_eq _).symm
    _ = allCodewords.countP (fun cw => syndrome cw = 0#3) := by
      rw [List.countP_map]
      exact List.countP_congr fun cw _ => by simp [hshift]
    _ = 16 := countP_syndrome_eq_zero

/-- Settles O22: a SYNDROME request answers the syndrome of its operand in every state, so the facts about
`syndrome` are facts about the answers. -/
theorem syndromeFacts : Obligations.SyndromeFacts := by
  intro s s' s''
  simp only [hostSyndrome_eq, Option.some.injEq]
  exact ⟨syndrome_eq_foldl_xor,
    fun a b => ⟨_, _, rfl, rfl, syndrome_xor a b⟩,
    fun v e hv => syndrome_channel_of_valid e hv,
    countP_syndrome_eq,
    syndrome_eq_zero_iff_valid⟩

end Sys2Proof.Machine
end

section
/-! R60, R61: what an ENCODE request answers. -/

namespace Sys2Proof.Machine

/-- A Nibble operand is the low four wires of the argument (R39(b)). -/
theorem fieldNibble_eq_setWidth (r : Request) : fieldNibble r = (fieldArg r).setWidth 4 := by
  ext k hk
  have h7 : k < 7 := by omega
  simp [fieldNibble, fieldArg, h7]

/-- An ENCODE request decodes to the operation it encodes. -/
@[simp] theorem decodeReq_encodeReq_encode (d : Nibble) :
    decodeReq (encodeReq (.encode d)) = .encode d := by
  have h10 : (packRequest 2#2 0#2 (d.setWidth 7))[10] = true := by simp [packRequest]
  have h9 : (packRequest 2#2 0#2 (d.setWidth 7))[9] = false := by simp [packRequest]
  have hnibble : fieldNibble (packRequest 2#2 0#2 (d.setWidth 7)) = d := by
    rw [fieldNibble_eq_setWidth, fieldArg_packRequest, BitVec.setWidth_setWidth_of_le d (by decide),
      BitVec.setWidth_eq]
  simp [encodeReq, decodeReq, h10, h9, hnibble]

/-- R60: the block answers an ENCODE request, in any state, with the encoding on `cw_out` and 0 on the other
ports. -/
theorem respond_encode (d : Nibble) (s : State) :
    respond (encodeReq (.encode d)) s = some ⟨false, 0#3, encodeNibble d, 0#4⟩ := by
  rw [respond_eq, decodeReq_encodeReq_encode]
  rfl

/-- What the host reads on `cw_out`. -/
@[simp] theorem hostEncode_eq (d : Nibble) (s : State) : hostEncode d s = some (encodeNibble d) := by
  rw [hostEncode, respond_encode]
  rfl

end Sys2Proof.Machine
end

section
/-! R61, R63: the parity fill. Filling one parity bit changes no other parity, so the fills commute. -/

namespace Sys2Proof.Machine

/-! ### Replacing single elements -/

theorem setBit_eq_self_iff {w : Nat} (v : BitVec w) {i : Nat} (b : Bit) (hi : i < w) :
    setBit v i b = v ↔ v.getLsbD i = b := by
  constructor
  · intro h
    rw [← h, getLsbD_setBit v i i b hi, if_pos rfl]
  · rintro rfl
    refine BitVec.eq_of_getLsbD_eq fun j _ => ?_
    rw [getLsbD_setBit v i j _ hi]
    split_ifs with hji
    · rw [hji]
    · rfl

/-- Replacements at two positions commute. -/
theorem setBit_comm {w : Nat} (v : BitVec w) {i j : Nat} (b b' : Bit) (hi : i < w) (hj : j < w)
    (hij : i ≠ j) : setBit (setBit v i b) j b' = setBit (setBit v j b') i b := by
  refine BitVec.eq_of_getLsbD_eq fun k _ => ?_
  simp only [getLsbD_setBit, hi, hj]
  split_ifs with hkj hki
  · exact absurd (hki.symm.trans hkj) hij
  all_goals rfl

theorem setBit_xor {w : Nat} (v v' : BitVec w) {i : Nat} (b b' : Bit) (hi : i < w) :
    setBit (v ^^^ v') i (b ^^ b') = setBit v i b ^^^ setBit v' i b' := by
  refine BitVec.eq_of_getLsbD_eq fun j _ => ?_
  simp only [BitVec.getLsbD_xor, getLsbD_setBit, hi]
  split_ifs <;> rfl

/-! ### The fill, in any order -/

theorem parityPos_lt (p : Fin 3) : parityPos p < 7 :=
  ((mem_group_iff p _).mp (parityPos_mem_group p)).1

theorem parityPos_ne {p q : Fin 3} (hpq : p ≠ q) : parityPos p ≠ parityPos q := fun h =>
  hpq ((parityPos_mem_group_iff q p).mp (h ▸ parityPos_mem_group q))

/-- The parity of exponent `p` in `src`, stored in `cw` at its parity position. -/
def storeParity (src cw : Codeword) (p : Fin 3) : Codeword := setBit cw (parityPos p) (parity src p)

/-- R63(ii): storing one parity bit leaves the parities of the other exponents as they were. -/
theorem parity_storeParity_of_ne (src cw : Codeword) {p q : Fin 3} (hpq : p ≠ q) :
    parity (storeParity src cw p) q = parity cw q :=
  parity_setBit_of_notMem q cw _ (parityPos_lt p) fun h => hpq ((parityPos_mem_group_iff q p).mp h)

/-- Stores of parities taken from one source commute. -/
theorem storeParity_comm (src cw : Codeword) (p q : Fin 3) :
    storeParity src (storeParity src cw p) q = storeParity src (storeParity src cw q) p := by
  obtain rfl | hpq := eq_or_ne p q
  · rfl
  · exact setBit_comm cw _ _ (parityPos_lt p) (parityPos_lt q) (parityPos_ne hpq)

/-- R63: a fill takes each parity from the current content, which is the parity of the source as long as no
exponent is filled twice. -/
theorem fillParities_eq_foldl_storeParity {src cw : Codeword} {order : List (Fin 3)} (hnodup : order.Nodup)
    (hsame : ∀ p ∈ order, parity cw p = parity src p) :
    fillParities order cw = order.foldl (storeParity src) cw := by
  induction order generalizing cw with
  | nil => rfl
  | cons p order ih =>
    obtain ⟨hp, horder⟩ := List.nodup_cons.mp hnodup
    have hfill : fillParity cw p = storeParity src cw p := by
      rw [fillParity, hsame p List.mem_cons_self, storeParity]
    have hrest : ∀ q ∈ order, parity (storeParity src cw p) q = parity src q := fun q hq => by
      rw [parity_storeParity_of_ne src cw (ne_of_mem_of_not_mem hq hp).symm,
        hsame q (List.mem_cons_of_mem p hq)]
    calc fillParities (p :: order) cw
      _ = fillParities order (fillParity cw p) := rfl
      _ = order.foldl (storeParity src) (storeParity src cw p) := by rw [hfill, ih horder hrest]

/-- R63: ENCODE stores all three parities of the placed data at once. -/
theorem encodeNibble_eq_foldl_storeParity (d : Nibble) :
    encodeNibble d = [0, 1, 2].foldl (storeParity (placeData d)) (placeData d) :=
  fillParities_eq_foldl_storeParity (by decide) fun _ _ => rfl

/-- R63: the order of the fill is immaterial. -/
theorem fillParities_placeData_of_perm (d : Nibble) {order : List (Fin 3)} (hperm : order.Perm [0, 1, 2]) :
    fillParities order (placeData d) = encodeNibble d := by
  have hnodup : order.Nodup := hperm.nodup_iff.mpr (by decide)
  rw [fillParities_eq_foldl_storeParity hnodup fun _ _ => rfl, encodeNibble_eq_foldl_storeParity]
  exact hperm.foldl_eq' (fun p _ q _ cw => storeParity_comm (placeData d) cw p q) _

end Sys2Proof.Machine
end

section
/-! R62, R65: the closed form of the encoder and its function table. -/

namespace Sys2Proof.Machine

/-! ### Codewords as lists of bits -/

theorem bitsOfCodeword_eq_iff {cw : Codeword} {c0 c1 c2 c3 c4 c5 c6 : Bit} :
    bitsOfCodeword cw = [c0, c1, c2, c3, c4, c5, c6] ↔
      cw[0] = c0 ∧ cw[1] = c1 ∧ cw[2] = c2 ∧ cw[3] = c3 ∧ cw[4] = c4 ∧ cw[5] = c5 ∧ cw[6] = c6 := by
  simp only [bitsOfCodeword, List.cons.injEq, and_true]

theorem bitsOfCodeword_injective {a b : Codeword} (h : bitsOfCodeword a = bitsOfCodeword b) : a = b := by
  obtain ⟨h0, h1, h2, h3, h4, h5, h6⟩ := bitsOfCodeword_eq_iff.mp h
  ext i hi
  interval_cases i <;> assumption

/-- `s[i] <- b` on the list of bits. -/
theorem bitsOfCodeword_setBit (cw : Codeword) {i : Nat} (b : Bit) (hi : i < 7) :
    bitsOfCodeword (setBit cw i b) = (bitsOfCodeword cw).set i b := by
  interval_cases i <;> simp [bitsOfCodeword, ← BitVec.getLsbD_eq_getElem, getLsbD_setBit]

/-! ### The placed data and the fill, element by element -/

/-- R61: the data bits at positions 2, 4, 5, 6 and 0 at the parity positions. -/
theorem bitsOfCodeword_placeData (d : Nibble) :
    bitsOfCodeword (placeData d) = [false, false, d[0], false, d[1], d[2], d[3]] := by
  have hzero : bitsOfCodeword 0#7 = List.replicate 7 false := rfl
  simp [placeData, dataPos, bitsOfNibble, bitsOfCodeword_setBit, hzero]

/-- R62: the parity position of a group holds 0 in the placed data, so each parity is the XOR of the three
data bits of its group. -/
theorem parity_placeData (d : Nibble) :
    parity (placeData d) 0 = (d[0] ^^ d[1] ^^ d[3]) ∧ parity (placeData d) 1 = (d[0] ^^ d[2] ^^ d[3]) ∧
      parity (placeData d) 2 = (d[1] ^^ d[2] ^^ d[3]) := by
  obtain ⟨h0, h1, h2, h3, h4, h5, h6⟩ := bitsOfCodeword_eq_iff.mp (bitsOfCodeword_placeData d)
  simp only [parity_zero_eq, parity_one_eq, parity_two_eq, h0, h1, h2, h3, h4, h5, h6, Bool.false_xor,
    and_self]

/-- R62: the seven equations. -/
theorem bitsOfCodeword_encodeNibble (d : Nibble) : bitsOfCodeword (encodeNibble d) =
    [d[0] ^^ d[1] ^^ d[3], d[0] ^^ d[2] ^^ d[3], d[0], d[1] ^^ d[2] ^^ d[3], d[1], d[2], d[3]] := by
  obtain ⟨h0, h1, h2⟩ := parity_placeData d
  simp [encodeNibble_eq_foldl_storeParity, storeParity, parityPos, bitsOfCodeword_setBit,
    bitsOfCodeword_placeData, h0, h1, h2]

/-- Settles O12: ENCODE drives the encoding, whose elements are the seven equations. -/
theorem encodeDrivesTheClosedForm : Obligations.EncodeDrivesTheClosedForm := by
  intro d s
  have hclosed : codewordOf (d[0] ^^ d[1] ^^ d[3]) (d[0] ^^ d[2] ^^ d[3]) d[0] (d[1] ^^ d[2] ^^ d[3])
      d[1] d[2] d[3] = encodeNibble d :=
    bitsOfCodeword_injective (by rw [bitsOfCodeword_codewordOf, bitsOfCodeword_encodeNibble])
  rw [hclosed]
  exact exec_eq (.encode d) s

/-- Settles O28: the table's rows are encodings, and the block answers each row's request with its encoding. -/
theorem encodeFunctionTable : Obligations.EncodeFunctionTable := by
  intro s row hrow
  have htable : encodeReq (.encode row.1) = row.2.1 ∧ encodeNibble row.1 = row.2.2 := by
    revert row
    simp only [List.forall_mem_append, List.forall_mem_cons, List.not_mem_nil, false_imp_iff, implies_true,
      and_true]
    and_intros
    all_goals decide
  obtain ⟨hreq, hcw⟩ := htable
  exact ⟨hreq, by rw [← hreq, respond_encode, hcw]⟩

end Sys2Proof.Machine
end

section
/-! R63, R64: the encodings are the valid codewords. -/

namespace Sys2Proof.Machine

/-- R64(a): each stored bit is the XOR of the other members of its group. -/
theorem valid_encodeNibble (d : Nibble) : valid (encodeNibble d) = true := by
  obtain ⟨h0, h1, h2, h3, h4, h5, h6⟩ := bitsOfCodeword_eq_iff.mp (bitsOfCodeword_encodeNibble d)
  rw [valid_iff, parity_zero_eq, parity_one_eq, parity_two_eq, h0, h1, h2, h3, h4, h5, h6]
  simp [Bool.xor_left_comm]

/-- R63, R64(a): on a finished codeword every parity is 0. -/
theorem parity_encodeNibble (d : Nibble) (p : Fin 3) : parity (encodeNibble d) p = false :=
  (syndrome_eq_zero_iff _).mp ((syndrome_eq_zero_iff_valid _).mpr (valid_encodeNibble d)) p

/-- R64(b): a Nibble is read back from its encoding. -/
theorem extractData_encodeNibble (d : Nibble) : extractData (encodeNibble d) = d := by
  obtain ⟨-, -, e2, -, e4, e5, e6⟩ := bitsOfCodeword_eq_iff.mp (bitsOfCodeword_encodeNibble d)
  obtain ⟨-, -, h2, -, h4, h5, h6⟩ := bitsOfCodeword_eq_iff.mp (bitsOfCodeword_placeData d)
  calc extractData (encodeNibble d)
    _ = extractData (placeData d) := by rw [extractData, extractData, e2, e4, e5, e6, h2, h4, h5, h6]
    _ = d := extractData_placeData d

/-- R64(c): a valid codeword is the encoding of its data bits. -/
theorem encodeNibble_extractData {cw : Codeword} (hvalid : valid cw = true) :
    encodeNibble (extractData cw) = cw := by
  have hdata := bitsOfNibble_nibbleOf cw[2] cw[4] cw[5] cw[6]
  simp only [bitsOfNibble, List.cons.injEq, and_true] at hdata
  obtain ⟨d0, d1, d2, d3⟩ := hdata
  rw [valid_iff, parity_zero_eq, parity_one_eq, parity_two_eq] at hvalid
  simp only [Bool.xor_assoc, bne_eq_false_iff_eq] at hvalid
  obtain ⟨c0, c1, c3⟩ := hvalid
  refine bitsOfCodeword_injective ?_
  simp only [bitsOfCodeword_encodeNibble, extractData, d0, d1, d2, d3, Bool.xor_assoc]
  exact (bitsOfCodeword_eq_iff.mpr ⟨c0, c1, rfl, c3, rfl, rfl, rfl⟩).symm

/-- R64(d): taking a parity and storing it are linear, so the fill is. -/
theorem fillParities_xor (order : List (Fin 3)) (a b : Codeword) :
    fillParities order (a ^^^ b) = fillParities order a ^^^ fillParities order b := by
  induction order generalizing a b with
  | nil => rfl
  | cons p order ih =>
    have hfill : fillParity (a ^^^ b) p = fillParity a p ^^^ fillParity b p := by
      rw [fillParity, parity_xor, setBit_xor a b _ _ (parityPos_lt p), fillParity, fillParity]
    calc fillParities (p :: order) (a ^^^ b)
      _ = fillParities order (fillParity (a ^^^ b) p) := rfl
      _ = fillParities order (fillParity a p) ^^^ fillParities order (fillParity b p) := by rw [hfill, ih]

theorem placeData_xor (a b : Nibble) : placeData (a ^^^ b) = placeData a ^^^ placeData b := by
  simp [placeData, dataPos, bitsOfNibble, ← setBit_xor]

/-- R64(d): the encoder is linear, because placing the data is, and the fill. -/
theorem encodeNibble_xor (a b : Nibble) : encodeNibble (a ^^^ b) = encodeNibble a ^^^ encodeNibble b := by
  rw [encodeNibble, placeData_xor, fillParities_xor, encodeNibble, encodeNibble]

/-- Settles O25: an ENCODE request answers the encoding in every state, so the facts about `encode` are facts
about the answers. -/
theorem encodeFacts : Obligations.EncodeFacts := by
  intro s s' s''
  simp only [hostEncode_eq, hostSyndrome_eq, Option.some.injEq]
  refine ⟨fun d => ⟨_, rfl, (syndrome_eq_zero_iff_valid _).mpr (valid_encodeNibble d)⟩,
    fun a b hab => Function.LeftInverse.injective extractData_encodeNibble hab,
    fun cw => ⟨fun hvalid => ⟨_, encodeNibble_extractData hvalid⟩, ?_⟩,
    fun a b => ⟨_, _, rfl, rfl, encodeNibble_xor a b⟩⟩
  rintro ⟨d, rfl⟩
  exact valid_encodeNibble d

/-- Settles O26: the fills commute, and a finished codeword has parities 0. -/
theorem parityFillOrderIsImmaterial : Obligations.ParityFillOrderIsImmaterial := by
  intro d s
  simp only [hostEncode_eq, Option.some.injEq]
  refine ⟨fun order hperm => (fillParities_placeData_of_perm d hperm).symm,
    encodeNibble_eq_foldl_storeParity d, ?_⟩
  rintro cw rfl p
  rw [fillParity, parity_encodeNibble, ne_eq, setBit_eq_self_iff _ _ (parityPos_lt p), Bool.not_eq_false]
  exact ⟨rfl, rfl, Iff.rfl⟩

end Sys2Proof.Machine
end

section
/-! R66: what a DECODE request answers. -/

namespace Sys2Proof.Machine

/-- A DECODE request decodes to the operation it encodes. -/
@[simp] theorem decodeReq_encodeReq_decode (c : Codeword) :
    decodeReq (encodeReq (.decode c)) = .decode c := by
  have h10 : (packRequest 3#2 0#2 c)[10] = true := by simp [packRequest]
  have h9 : (packRequest 3#2 0#2 c)[9] = true := by simp [packRequest]
  simp [encodeReq, decodeReq, h10, h9]

/-- R66: the block answers a DECODE request, in any state, with the three results of `decode` on their ports and
0 on `par_out`. -/
theorem respond_decode (c : Codeword) (s : State) : respond (encodeReq (.decode c)) s =
    some ⟨false, (decodeNibble c).2.2, (decodeNibble c).2.1, (decodeNibble c).1⟩ := by
  rw [respond_eq, decodeReq_encodeReq_decode]
  rfl

/-- What the host reads on the three ports. -/
@[simp] theorem hostDecode_eq (c : Codeword) (s : State) : hostDecode c s = some (decodeNibble c) := by
  rw [hostDecode, respond_decode]
  rfl

end Sys2Proof.Machine
end

section
/-! R67, R68: the corrector adds the error that the syndrome names. -/

namespace Sys2Proof.Machine

/-- A single 1, bit by bit. -/
theorem getLsbD_flipAt {i : Nat} (hi : i < 7) (j : Nat) : (flipAt i).getLsbD j = decide (i = j) := by
  simp [flipAt, BitVec.getLsbD_twoPow, hi]

/-- Complementing one bit is adding a single 1. -/
theorem setBit_not_eq_xor_flipAt (cw : Codeword) {i : Nat} (hi : i < 7) :
    setBit cw i (!cw.getLsbD i) = cw ^^^ flipAt i := by
  refine BitVec.eq_of_getLsbD_eq fun j _ => ?_
  rw [getLsbD_setBit cw i j _ hi, BitVec.getLsbD_xor, getLsbD_flipAt hi]
  obtain rfl | hji := eq_or_ne j i
  · simp
  · simp [hji, hji.symm]

theorem toNat_ne_zero_of_ne_zero {syn : Syndrome} (hsyn : syn ≠ 0#3) : syn.toNat ≠ 0 :=
  fun h => hsyn (BitVec.eq_of_toNat_eq h)

/-- R68: three wires carry at most 7, so the guard of the correction is true. -/
theorem toNat_sub_one_lt (syn : Syndrome) : syn.toNat - 1 < 7 := by
  have h8 : syn.toNat < 8 := syn.isLt
  omega

theorem correct_zero (cw : Codeword) : correct cw 0#3 = cw := rfl

/-- R67 step 2, without the guard (R68). -/
theorem correct_of_ne_zero (cw : Codeword) {syn : Syndrome} (hsyn : syn ≠ 0#3) :
    correct cw syn = cw ^^^ flipAt (syn.toNat - 1) := by
  have hguard : syn.toNat ≠ 0 ∧ syn.toNat - 1 < Config.codewordBits :=
    ⟨toNat_ne_zero_of_ne_zero hsyn, toNat_sub_one_lt syn⟩
  rw [correct, if_pos hguard, setBit_not_eq_xor_flipAt cw (toNat_sub_one_lt syn)]

/-- Settles O37: three wires carry at most 7, so the guard is true wherever it is reached. -/
theorem decoderGuardIsDead : Obligations.DecoderGuardIsDead := by
  intro cw s
  have hclean : syndrome cw = 0#3 → correct cw (syndrome cw) = cw := fun hsyn => by
    rw [hsyn, correct_zero]
  exact ⟨_, _, _, hostDecode_eq cw s,
    fun hsyn => ⟨toNat_sub_one_lt (syndrome cw), correct_of_ne_zero cw hsyn⟩, hclean⟩

/-- The error sequence that a syndrome names: none for 0, else the single 1 at index `syn - 1`. -/
def locatedError (syn : Syndrome) : Codeword := if syn = 0#3 then 0#7 else flipAt (syn.toNat - 1)

theorem locatedError_zero : locatedError 0#3 = 0#7 := rfl

theorem locatedError_of_ne_zero {syn : Syndrome} (hsyn : syn ≠ 0#3) :
    locatedError syn = flipAt (syn.toNat - 1) := if_neg hsyn

/-- R67 step 2 in one form for every syndrome: the named error is added. -/
theorem correct_eq_xor_locatedError (cw : Codeword) (syn : Syndrome) :
    correct cw syn = cw ^^^ locatedError syn := by
  obtain rfl | hsyn := eq_or_ne syn 0#3
  · rw [correct_zero, locatedError_zero, BitVec.xor_zero]
  · rw [correct_of_ne_zero cw hsyn, locatedError_of_ne_zero hsyn]

theorem getLsbD_locatedError (syn : Syndrome) (i : Nat) :
    (locatedError syn).getLsbD i = decide (syn.toNat = i + 1) := by
  obtain rfl | hsyn := eq_or_ne syn 0#3
  · simp [locatedError_zero]
  · have hpos := toNat_ne_zero_of_ne_zero hsyn
    rw [locatedError_of_ne_zero hsyn, getLsbD_flipAt (toNat_sub_one_lt syn), decide_eq_decide]
    omega

/-- R67: "`c'[i] = c[i] ^ (1 if s = i+1 else 0)`". -/
theorem getLsbD_correct (cw : Codeword) (syn : Syndrome) (i : Nat) :
    (correct cw syn).getLsbD i = (cw.getLsbD i ^^ decide (syn.toNat = i + 1)) := by
  rw [correct_eq_xor_locatedError, BitVec.getLsbD_xor, getLsbD_locatedError]

/-- Settles O13: DECODE drives the syndrome, the operand plus the error it names, and that sum's data bits. -/
theorem decodeDrivesTheCorrection : Obligations.DecodeDrivesTheCorrection := by
  intro cw s
  obtain ⟨h0, h1, h2⟩ := syndrome_bits_eq cw
  exact ⟨syndrome cw, correct cw (syndrome cw), exec_eq (.decode cw) s, h0, h1, h2,
    fun i _ => getLsbD_correct cw (syndrome cw) i⟩

end Sys2Proof.Machine
end

section
/-! R59: errors of weight at most 1, each of which is the one its syndrome names. -/

namespace Sys2Proof.Machine

theorem weight_zero : weight 0#7 = 0 := rfl

theorem weight_flipAt {i : Nat} (hi : i < 7) : weight (flipAt i) = 1 := by
  have hbits : (flipAt i).getLsbD = (· == i) := by
    funext j
    rw [getLsbD_flipAt hi, beq_eq_decide, decide_eq_decide, eq_comm]
  calc weight (flipAt i)
    _ = (List.range 7).count i := by rw [weight, hbits]; rfl
    _ = 1 := List.count_eq_one_of_mem List.nodup_range (List.mem_range.mpr hi)

/-- An error of weight at most 1 flips nothing or a single bit. -/
theorem eq_zero_or_flipAt_of_weight_le_one {e : Codeword} (hweight : weight e ≤ 1) :
    e = 0#7 ∨ ∃ i < 7, e = flipAt i := by
  have hset (j : Nat) : e.getLsbD j = true ↔ j ∈ (List.range 7).filter e.getLsbD := by
    rw [List.mem_filter, List.mem_range]
    exact (and_iff_right_of_imp BitVec.lt_of_getLsbD).symm
  rw [weight, List.countP_eq_length_filter] at hweight
  obtain hnone | hone := Nat.le_one_iff_eq_zero_or_eq_one.mp hweight
  · left
    refine BitVec.eq_of_getLsbD_eq fun j _ => ?_
    rw [Bool.eq_iff_iff, hset, List.length_eq_zero_iff.mp hnone]
    simp
  · right
    obtain ⟨i, hi⟩ := List.length_eq_one_iff.mp hone
    have hi7 : i < 7 := BitVec.lt_of_getLsbD ((hset i).mpr (by rw [hi]; exact List.mem_singleton_self i))
    refine ⟨i, hi7, BitVec.eq_of_getLsbD_eq fun j _ => ?_⟩
    rw [Bool.eq_iff_iff, hset, hi, getLsbD_flipAt hi7, List.mem_singleton, decide_eq_true_iff, eq_comm]

/-- R59(a): a single 1 at index `i` has the syndrome `i + 1`. -/
theorem syndrome_flipAt {i : Nat} (hi : i < 7) : syndrome (flipAt i) = BitVec.ofNat 3 (i + 1) := by
  refine (eq_syndrome_of_bits fun p => ?_).symm
  rw [BitVec.getLsbD_ofNat, decide_eq_true p.isLt, Bool.true_and, parity_flipAt p hi]

/-- The syndrome that names index `i` is `i + 1`. -/
theorem locatedError_ofNat_add_one {i : Nat} (hi : i < 7) :
    locatedError (BitVec.ofNat 3 (i + 1)) = flipAt i := by
  have htoNat : (BitVec.ofNat 3 (i + 1)).toNat = i + 1 := by
    rw [BitVec.toNat_ofNat]
    omega
  refine BitVec.eq_of_getLsbD_eq fun j _ => ?_
  rw [getLsbD_locatedError, htoNat, getLsbD_flipAt hi, decide_eq_decide, Nat.add_right_cancel_iff]

theorem syndrome_locatedError (syn : Syndrome) : syndrome (locatedError syn) = syn := by
  obtain rfl | hsyn := eq_or_ne syn 0#3
  · rfl
  · rw [locatedError_of_ne_zero hsyn, syndrome_flipAt (toNat_sub_one_lt syn),
      Nat.sub_one_add_one (toNat_ne_zero_of_ne_zero hsyn), BitVec.ofNat_toNat, BitVec.setWidth_eq]

theorem weight_locatedError (syn : Syndrome) :
    weight (locatedError syn) = if syn = 0#3 then 0 else 1 := by
  split_ifs with hsyn
  · rw [hsyn, locatedError_zero, weight_zero]
  · rw [locatedError_of_ne_zero hsyn, weight_flipAt (toNat_sub_one_lt syn)]

/-- An error of weight at most 1 is the one that its syndrome names. -/
theorem locatedError_syndrome {e : Codeword} (hweight : weight e ≤ 1) : locatedError (syndrome e) = e := by
  obtain rfl | ⟨i, hi, rfl⟩ := eq_zero_or_flipAt_of_weight_le_one hweight
  · rfl
  · rw [syndrome_flipAt hi, locatedError_ofNat_add_one hi]

end Sys2Proof.Machine
end

section
/-! R72: the six facts about `decode`. -/

namespace Sys2Proof.Machine

/-- R72(a): adding the error that the syndrome names changes the syndrome by itself. -/
theorem syndrome_correct (cw : Codeword) : syndrome (correct cw (syndrome cw)) = 0#3 := by
  rw [correct_eq_xor_locatedError, syndrome_xor, syndrome_locatedError, BitVec.xor_self]

theorem valid_correct (cw : Codeword) : valid (correct cw (syndrome cw)) = true :=
  (syndrome_eq_zero_iff_valid _).mp (syndrome_correct cw)

/-- R72(b): a correction moves by the weight of the error it adds. -/
theorem distance_correct (cw : Codeword) (syn : Syndrome) :
    distance cw (correct cw syn) = if syn = 0#3 then 0 else 1 := by
  rw [distance, correct_eq_xor_locatedError, ← BitVec.xor_assoc, BitVec.xor_self, BitVec.zero_xor,
    weight_locatedError]

/-- R72(b): the error between the operand and a valid codeword has the operand's syndrome, so within distance 1
it is the error that the corrector adds. -/
theorem distance_le_one_iff_eq_correct (cw : Codeword) {v : Codeword} (hvalid : valid v = true) :
    distance cw v ≤ 1 ↔ v = correct cw (syndrome cw) := by
  constructor
  · intro hdist
    have hsyn : syndrome (cw ^^^ v) = syndrome cw := by
      rw [syndrome_xor, (syndrome_eq_zero_iff_valid v).mpr hvalid, BitVec.xor_zero]
    have herror : locatedError (syndrome cw) = cw ^^^ v := by
      rw [← hsyn]
      exact locatedError_syndrome hdist
    rw [correct_eq_xor_locatedError, herror, ← BitVec.xor_assoc, BitVec.xor_self, BitVec.zero_xor]
  · rintro rfl
    rw [distance_correct]
    split_ifs <;> decide

/-- R72(d): an encoding has syndrome 0, so nothing is corrected. -/
theorem decodeNibble_encodeNibble (x : Nibble) : decodeNibble (encodeNibble x) = (x, encodeNibble x, 0#3) := by
  have hsyn : syndrome (encodeNibble x) = 0#3 := (syndrome_eq_zero_iff_valid _).mpr (valid_encodeNibble x)
  rw [decodeNibble, hsyn, correct_zero, extractData_encodeNibble]

/-- R72(e): a data bit is complemented exactly when the syndrome names its index. -/
theorem extractData_correct (cw : Codeword) (syn : Syndrome) : extractData (correct cw syn) =
    nibbleOf (cw[2] ^^ decide (syn = 3#3)) (cw[4] ^^ decide (syn = 5#3)) (cw[5] ^^ decide (syn = 6#3))
      (cw[6] ^^ decide (syn = 7#3)) := by
  simp only [extractData, ← BitVec.getLsbD_eq_getElem, getLsbD_correct, BitVec.toNat_eq, BitVec.toNat_ofNat,
    Nat.reduceAdd, Nat.reducePow, Nat.reduceMod]

/-- R72(b), (c): an operand decodes to the Nibble whose encoding is within distance 1. -/
theorem decodeNibble_fst_eq_iff (cw : Codeword) (d : Nibble) :
    (decodeNibble cw).1 = d ↔ distance cw (encodeNibble d) ≤ 1 := by
  rw [distance_le_one_iff_eq_correct cw (valid_encodeNibble d)]
  constructor
  · rintro rfl
    exact encodeNibble_extractData (valid_correct cw)
  · intro hencode
    calc (decodeNibble cw).1
      _ = extractData (encodeNibble d) := by rw [hencode]; rfl
      _ = d := extractData_encodeNibble d

/-- No flip, or one of the seven single ones. -/
theorem countP_weight_le_one : allCodewords.countP (fun e => weight e ≤ 1) = 8 := by
  decide

/-- R72(f): adding the encoding carries the operands that decode to a Nibble to the errors of weight at most 1. -/
theorem countP_decodeNibble_fst_eq (d : Nibble) :
    allCodewords.countP (fun cw => (decodeNibble cw).1 = d) = 8 := by
  simp only [decodeNibble_fst_eq_iff, distance, BitVec.xor_comm _ (encodeNibble d)]
  calc allCodewords.countP (fun cw => weight (encodeNibble d ^^^ cw) ≤ 1)
    _ = (allCodewords.map (encodeNibble d ^^^ ·)).countP (fun e => weight e ≤ 1) := by
      rw [List.countP_map]
      rfl
    _ = allCodewords.countP (fun e => weight e ≤ 1) := (map_xor_allCodewords_perm _).countP_eq _
    _ = 8 := countP_weight_le_one

/-- Settles O29: a DECODE request answers `decode` of its operand in every state, so the facts about `decode` are
facts about the answers. -/
theorem decodeFacts : Obligations.DecodeFacts := by
  intro s s'
  simp only [hostDecode_eq, hostSyndrome_eq, hostEncode_eq, Option.some.injEq, Option.map_some]
  refine ⟨fun cw => ?_, fun x => ⟨_, rfl, decodeNibble_encodeNibble x⟩, countP_decodeNibble_fst_eq⟩
  exact ⟨_, _, _, rfl, syndrome_correct cw,
    fun v hvalid => distance_le_one_iff_eq_correct cw hvalid,
    distance_correct cw (syndrome cw),
    encodeNibble_extractData (valid_correct cw),
    extractData_correct cw (syndrome cw)⟩

end Sys2Proof.Machine
end

section
/-! Lists built from blocks of one length: how long they are, and where each block stands. -/

namespace Sys2Proof.Machine

variable {α β : Type} {f : α → List β} {w : Nat}

theorem length_flatMap_of_width (hwidth : ∀ x, (f x).length = w) (xs : List α) :
    (xs.flatMap f).length = w * xs.length := by
  rw [List.length_flatMap, List.map_congr_left fun x _ => hwidth x, List.map_const', List.sum_replicate,
    smul_eq_mul, Nat.mul_comm]

/-- Block `g` of the list stands at elements `w*g` to `w*g + w-1`. -/
theorem take_drop_flatMap_of_width (hwidth : ∀ x, (f x).length = w) (xs : List α) {g : Nat} (hg : g < xs.length) :
    ((xs.flatMap f).drop (w * g)).take w = f xs[g] := by
  induction xs generalizing g with
  | nil => exact absurd hg (Nat.not_lt_zero g)
  | cons x xs ih =>
    rw [List.flatMap_cons]
    cases g with
    | zero => exact List.take_left' (hwidth x)
    | succ g =>
      have hdrop : (f x ++ xs.flatMap f).drop (w * (g + 1)) = (xs.flatMap f).drop (w * g) := by
        rw [Nat.mul_add_one, Nat.add_comm, ← hwidth x, List.drop_length_add_append]
      rw [hdrop]
      exact ih (Nat.lt_of_succ_lt_succ hg)

end Sys2Proof.Machine
end

section
/-! R32, R77: the groups a bit stream is cut into, read by their number. -/

namespace Sys2Proof.Machine

/-- R74: group `g` of 4 bits. -/
def nibbleAt (bits : List Bit) (g : Nat) : Nibble :=
  nibbleOf (bits.getD (4 * g) false) (bits.getD (4 * g + 1) false) (bits.getD (4 * g + 2) false)
    (bits.getD (4 * g + 3) false)

/-- R75: group `g` of 7 bits. -/
def codewordAt (coded : List Bit) (g : Nat) : Codeword :=
  codewordOf (coded.getD (7 * g) false) (coded.getD (7 * g + 1) false) (coded.getD (7 * g + 2) false)
    (coded.getD (7 * g + 3) false) (coded.getD (7 * g + 4) false) (coded.getD (7 * g + 5) false)
    (coded.getD (7 * g + 6) false)

/-- R74, R77: the groups of 4 that the stream driver cuts are groups 0 to `len div 4 - 1`. -/
theorem nibblesOf_eq_map_nibbleAt (bits : List Bit) :
    nibblesOf bits = (List.range (bits.length / 4)).map (nibbleAt bits) := by
  fun_induction nibblesOf bits with
  | case1 b0 b1 b2 b3 rest ih =>
    have hcount : (b0 :: b1 :: b2 :: b3 :: rest).length / 4 = rest.length / 4 + 1 :=
      Nat.add_div_right (z := 4) rest.length (by decide)
    rw [hcount, List.range_succ_eq_map, List.map_cons, List.map_map, ih]
    rfl
  | case2 bits hshort =>
    have hcount : bits.length / 4 = 0 := by
      match bits, hshort with
      | [], _ | [_], _ | [_, _], _ | [_, _, _], _ => simp
      | b0 :: b1 :: b2 :: b3 :: rest, hshort => exact (hshort b0 b1 b2 b3 rest rfl).elim
    rw [hcount]
    rfl

/-- R75, R77: the groups of 7 that the stream driver cuts are groups 0 to `len div 7 - 1`. -/
theorem codewordsOf_eq_map_codewordAt (coded : List Bit) :
    codewordsOf coded = (List.range (coded.length / 7)).map (codewordAt coded) := by
  fun_induction codewordsOf coded with
  | case1 c0 c1 c2 c3 c4 c5 c6 rest ih =>
    have hcount : (c0 :: c1 :: c2 :: c3 :: c4 :: c5 :: c6 :: rest).length / 7 = rest.length / 7 + 1 :=
      Nat.add_div_right (z := 7) rest.length (by decide)
    rw [hcount, List.range_succ_eq_map, List.map_cons, List.map_map, ih]
    rfl
  | case2 coded hshort =>
    have hcount : coded.length / 7 = 0 := by
      match coded, hshort with
      | [], _ | [_], _ | [_, _], _ | [_, _, _], _ | [_, _, _, _], _ | [_, _, _, _, _], _
      | [_, _, _, _, _, _], _ => simp
      | c0 :: c1 :: c2 :: c3 :: c4 :: c5 :: c6 :: rest, hshort =>
        exact (hshort c0 c1 c2 c3 c4 c5 c6 rest rfl).elim
    rw [hcount]
    rfl

end Sys2Proof.Machine
end

section
/-! R74 to R76: what a stream call answers, in any state of the block. -/

namespace Sys2Proof.Machine

/-! ### Running specified requests -/

/-- R34: specified requests, issued one after another, get the same responses in every state. -/
theorem serve_of_specified {rs : List Request} (hspec : ∀ r ∈ rs, specified r = true) (s : State) :
    ∃ t, serve rs s = .next (t, rs.map fun r => responseOf (decodeReq r) false) := by
  induction rs generalizing s with
  | nil => exact ⟨s, rfl⟩
  | cons r rs ih =>
    obtain ⟨hr, hrs⟩ := List.forall_mem_cons.mp hspec
    rw [serve_cons, responseOf_wellFormed (decodeReq r) hr _ false]
    obtain ⟨t, ht⟩ := ih hrs { req := r, out := responseOf (decodeReq r) false,
                               draws := (s.driveReq r).draws + drawsOf (decodeReq r) }
    exact ⟨t, by rw [ht, mapNext_next, List.map_cons]⟩

theorem specified_encode (d : Nibble) : specified (encodeReq (.encode d)) = true := by
  rw [specified, decodeReq_encodeReq_encode]
  rfl

theorem specified_decode (c : Codeword) : specified (encodeReq (.decode c)) = true := by
  rw [specified, decodeReq_encodeReq_decode]
  rfl

/-- R112(b): no stream call issues a PARITY request, so none issues the reserved one. -/
theorem specified_of_mem_requests (op : StreamOp) : ∀ r ∈ op.requests, specified r = true := by
  cases op with
  | encodeBits bits => exact List.forall_mem_map.mpr fun d _ => specified_encode d
  | decodeBits coded => exact List.forall_mem_map.mpr fun c _ => specified_decode c
  | encodeBytes bytes =>
    intro r hr
    obtain ⟨b, -, hr⟩ := List.mem_flatMap.mp hr
    simp only [List.mem_cons, List.not_mem_nil, or_false] at hr
    obtain rfl | rfl := hr <;> exact specified_encode _

/-! ### The three outputs -/

/-- What a stream call appends for one of its requests. -/
def StreamOp.answer (op : StreamOp) (r : Request) : List Bit := op.read (responseOf (decodeReq r) false)

/-- A stream call answers, and its output depends on its requests alone. -/
theorem streamOn_eq (op : StreamOp) (s : State) :
    ∃ t, streamOn op s = .next (t, op.requests.flatMap op.answer) := by
  obtain ⟨t, ht⟩ := serve_of_specified (specified_of_mem_requests op) s
  exact ⟨t, by rw [streamOn, ht, mapNext_next, List.flatMap_map]; rfl⟩

theorem answer_encodeBits (bits : List Bit) (d : Nibble) :
    (StreamOp.encodeBits bits).answer (encodeReq (.encode d)) = bitsOfCodeword (encodeNibble d) := by
  rw [StreamOp.answer, decodeReq_encodeReq_encode]
  rfl

theorem answer_decodeBits (coded : List Bit) (c : Codeword) :
    (StreamOp.decodeBits coded).answer (encodeReq (.decode c)) = bitsOfNibble (decodeNibble c).1 := by
  rw [StreamOp.answer, decodeReq_encodeReq_decode]
  rfl

theorem answer_encodeBytes (bytes : List Byte) (d : Nibble) :
    (StreamOp.encodeBytes bytes).answer (encodeReq (.encode d)) = bitsOfCodeword (encodeNibble d) := by
  rw [StreamOp.answer, decodeReq_encodeReq_encode]
  rfl

/-- R74: ENCODEBITS answers the encodings of its groups, in order. -/
theorem encodeBitsOn_eq (bits : List Bit) (s : State) : ∃ t, encodeBitsOn bits s =
    .next (t, (List.range (bits.length / 4)).flatMap fun g => bitsOfCodeword (encodeNibble (nibbleAt bits g))) := by
  obtain ⟨t, ht⟩ := streamOn_eq (.encodeBits bits) s
  refine ⟨t, ht.trans ?_⟩
  rw [StreamOp.requests, encodeBitsRequests, nibblesOf_eq_map_nibbleAt, List.map_map, List.flatMap_map]
  simp only [Function.comp_apply, answer_encodeBits]

/-- R75: DECODEBITS answers the Nibbles its groups decode to, in order. -/
theorem decodeBitsOn_eq (coded : List Bit) (s : State) : ∃ t, decodeBitsOn coded s =
    .next (t, (List.range (coded.length / 7)).flatMap fun g =>
      bitsOfNibble (decodeNibble (codewordAt coded g)).1) := by
  obtain ⟨t, ht⟩ := streamOn_eq (.decodeBits coded) s
  refine ⟨t, ht.trans ?_⟩
  rw [StreamOp.requests, decodeBitsRequests, codewordsOf_eq_map_codewordAt, List.map_map, List.flatMap_map]
  simp only [Function.comp_apply, answer_decodeBits]

/-- R76: the 14 bits of a byte: the encoding of its high and then of its low nibble. -/
def encodeByte (b : Byte) : List Bit :=
  bitsOfCodeword (encodeNibble (highNibble b)) ++ bitsOfCodeword (encodeNibble (lowNibble b))

/-- R76: ENCODEBYTES answers the 14 bits of each byte, in order. -/
theorem encodeBytesOn_eq (bytes : List Byte) (s : State) :
    ∃ t, encodeBytesOn bytes s = .next (t, bytes.flatMap encodeByte) := by
  obtain ⟨t, ht⟩ := streamOn_eq (.encodeBytes bytes) s
  refine ⟨t, ht.trans ?_⟩
  rw [StreamOp.requests, encodeBytesRequests, List.flatMap_assoc]
  simp only [List.flatMap_cons, List.flatMap_nil, List.append_nil, answer_encodeBytes]
  rfl

/-! ### How many requests -/

theorem length_requests_encodeBits (bits : List Bit) :
    (StreamOp.encodeBits bits).requests.length = bits.length / 4 := by
  rw [StreamOp.requests, encodeBitsRequests, List.length_map, nibblesOf_eq_map_nibbleAt, List.length_map,
    List.length_range]

theorem length_requests_decodeBits (coded : List Bit) :
    (StreamOp.decodeBits coded).requests.length = coded.length / 7 := by
  rw [StreamOp.requests, decodeBitsRequests, List.length_map, codewordsOf_eq_map_codewordAt, List.length_map,
    List.length_range]

theorem length_requests_encodeBytes (bytes : List Byte) :
    (StreamOp.encodeBytes bytes).requests.length = 2 * bytes.length :=
  length_flatMap_of_width (w := 2) (fun _ => rfl) bytes

/-! ### Group by group -/

/-- Settles O40: the output is one block of 7 bits per group. -/
theorem encodeBitsGroupByGroup : Obligations.EncodeBitsGroupByGroup := by
  intro bits s
  obtain ⟨t, ht⟩ := encodeBitsOn_eq bits s
  have hwidth : ∀ g, (bitsOfCodeword (encodeNibble (nibbleAt bits g))).length = 7 := fun _ => rfl
  refine ⟨t, _, ht, length_requests_encodeBits bits, ?_, fun g hg => ⟨_, hostEncode_eq _ s, ?_⟩⟩
  · rw [length_flatMap_of_width hwidth, List.length_range]
  · rw [take_drop_flatMap_of_width hwidth _ (List.length_range.symm ▸ hg), List.getElem_range]
    rfl

/-- Settles O41: the output is one block of 4 bits per group. -/
theorem decodeBitsGroupByGroup : Obligations.DecodeBitsGroupByGroup := by
  intro coded s
  obtain ⟨t, ht⟩ := decodeBitsOn_eq coded s
  have hwidth : ∀ g, (bitsOfNibble (decodeNibble (codewordAt coded g)).1).length = 4 := fun _ => rfl
  refine ⟨t, _, ht, length_requests_decodeBits coded, ?_, fun g hg => ⟨_, _, _, hostDecode_eq _ s, ?_⟩⟩
  · rw [length_flatMap_of_width hwidth, List.length_range]
  · rw [take_drop_flatMap_of_width hwidth _ (List.length_range.symm ▸ hg), List.getElem_range]
    rfl

/-- Settles O42: the output is one block of 14 bits per byte. -/
theorem encodeBytesByteByByte : Obligations.EncodeBytesByteByByte := by
  intro bytes s
  obtain ⟨t, ht⟩ := encodeBytesOn_eq bytes s
  have hwidth : ∀ b, (encodeByte b).length = 14 := fun _ => rfl
  refine ⟨t, _, ht, length_requests_encodeBytes bytes, length_flatMap_of_width hwidth bytes,
    fun j hj => ⟨_, _, ⟨hostEncode_eq _ s, hostEncode_eq _ s⟩, ?_⟩⟩
  rw [take_drop_flatMap_of_width hwidth bytes hj, List.getD_eq_getElem bytes _ hj]
  rfl

end Sys2Proof.Machine
end

section
/-! R92: the response to an operation, whatever stood on the ports before. -/

namespace Sys2Proof.Machine

/-- R43: the drawn Bit reaches no port but `par_out`. -/
theorem responseOf_eq_except_parOut (i : Instr) (b b' : Bit) :
    responseOf i b' = { responseOf i b with parOut := (responseOf i b').parOut } := by
  cases i with
  | parity exp c => cases hp : exponent? exp <;> simp [responseOf, hp]
  | syndrome c => rfl
  | encode d => rfl
  | decode c => rfl

/-- Settles O16: both states drive the operation's response, which sees of the state only the drawn Bit. -/
theorem responseForgetsHistory : Obligations.ResponseForgetsHistory := by
  intro i s s'
  exact ⟨_, _, exec_eq i s, exec_eq i s',
    fun hwell => responseOf_wellFormed i hwell s.freeBit s'.freeBit,
    responseOf_eq_except_parOut i s.freeBit s'.freeBit⟩

end Sys2Proof.Machine
end

section
/-! R84 to R87: an encoding that passed the channel, as SYNDROME and DECODE see it. -/

namespace Sys2Proof.Machine

theorem syndrome_channel_encodeNibble (x : Nibble) (e : Codeword) :
    syndrome (channel (encodeNibble x) e) = syndrome e :=
  syndrome_channel_of_valid e (valid_encodeNibble x)

/-- R84: the received word has the syndrome of the error, so the corrector adds the error once more, which takes
it away. -/
theorem decodeNibble_channel_encodeNibble (x : Nibble) {e : Codeword} (hweight : weight e ≤ 1) :
    decodeNibble (channel (encodeNibble x) e) = (x, encodeNibble x, syndrome e) := by
  have hcorrect : correct (channel (encodeNibble x) e) (syndrome e) = encodeNibble x := by
    rw [correct_eq_xor_locatedError, locatedError_syndrome hweight, channel, BitVec.xor_assoc, BitVec.xor_self,
      BitVec.xor_zero]
  rw [decodeNibble, syndrome_channel_encodeNibble, hcorrect, extractData_encodeNibble]

/-- R87: a single flip is corrected, and the syndrome is its 1-based position. -/
theorem decodeNibble_channel_flipAt (x : Nibble) {i : Nat} (hi : i < 7) :
    decodeNibble (channel (encodeNibble x) (flipAt i)) = (x, encodeNibble x, BitVec.ofNat 3 (i + 1)) := by
  rw [decodeNibble_channel_encodeNibble x (weight_flipAt hi).le, syndrome_flipAt hi]

/-- Settles O30: an encoding decodes to its Nibble, and both blocks answer in every state. -/
theorem noErrorRoundTrip : Obligations.NoErrorRoundTrip := by
  intro x s s'
  exact ⟨_, hostEncode_eq x s, by rw [hostDecode_eq, decodeNibble_encodeNibble]⟩

/-- Settles O31: the corrector takes an error of weight at most 1 away again. -/
theorem singleErrorsAreCorrected : Obligations.SingleErrorsAreCorrected := by
  constructor
  · intro x e s s' hweight
    exact ⟨_, _, hostEncode_eq x s, by rw [hostDecode_eq, decodeNibble_channel_encodeNibble x hweight]⟩
  · intro x i s s' hi
    exact ⟨_, hostEncode_eq x s, by rw [hostDecode_eq, decodeNibble_channel_flipAt x hi]⟩

/-- Settles O32: the syndrome of a received word is that of its error, and the words with syndrome 0 are the
valid ones, each the encoding of its data bits. -/
theorem syndromeNamesTheFlippedPosition : Obligations.SyndromeNamesTheFlippedPosition := by
  simp only [Obligations.SyndromeNamesTheFlippedPosition, hostSyndrome_eq, hostEncode_eq, Option.some.injEq]
  constructor
  · intro x _ _
    have hclean : syndrome (encodeNibble x) = 0#3 := (syndrome_eq_zero_iff_valid _).mpr (valid_encodeNibble x)
    exact ⟨_, rfl, hclean, fun i hi => (syndrome_channel_encodeNibble x _).trans (syndrome_flipAt hi)⟩
  · intro cw _ _ hclean
    exact ⟨extractData cw, encodeNibble_extractData ((syndrome_eq_zero_iff_valid cw).mp hclean)⟩

end Sys2Proof.Machine
end

section
/-! R89, R93: the distances of the code, and the classes of sequences that decode alike. -/

namespace Sys2Proof.Machine

/-- R64(d): the encodings of two Nibbles differ where the encoding of their sum holds a 1. -/
theorem distance_encodeNibble (a b : Nibble) :
    distance (encodeNibble a) (encodeNibble b) = weight (encodeNibble (a ^^^ b)) := by
  rw [distance, encodeNibble_xor]

/-- Every encoding but that of 0 holds at least three 1s. -/
theorem three_le_weight_encodeNibble : ∀ d : Nibble, d ≠ 0#4 → 3 ≤ weight (encodeNibble d) := by
  decide

theorem three_le_distance_encodeNibble {a b : Nibble} (hab : a ≠ b) :
    3 ≤ distance (encodeNibble a) (encodeNibble b) := by
  rw [distance_encodeNibble]
  exact three_le_weight_encodeNibble _ fun hzero => hab (BitVec.xor_eq_zero_iff.mp hzero)

/-- Settles O34: the code is linear, so its distances are the weights of its nonzero codewords; 0 and 1 encode
at distance 3. -/
theorem minimumDistanceIsThree : Obligations.MinimumDistanceIsThree := by
  intro s s'
  constructor
  · intro a b hab
    exact ⟨_, _, hostEncode_eq a s, hostEncode_eq b s', three_le_distance_encodeNibble hab⟩
  · exact ⟨0#4, 1#4, _, _, hostEncode_eq _ s, hostEncode_eq _ s', by decide⟩

/-- R22: a word differs from the codeword sent by the error of the channel. -/
theorem eq_channel_iff (cw v e : Codeword) : cw = channel v e ↔ cw ^^^ v = e := by
  rw [← BitVec.xor_left_inj v, channel, BitVec.xor_comm v e, BitVec.xor_assoc, BitVec.xor_self, BitVec.xor_zero]

theorem weight_le_one_iff (e : Codeword) : weight e ≤ 1 ↔ e = 0#7 ∨ ∃ i < 7, e = flipAt i := by
  constructor
  · exact eq_zero_or_flipAt_of_weight_le_one
  · rintro (rfl | ⟨i, hi, rfl⟩)
    · exact Nat.zero_le 1
    · exact (weight_flipAt hi).le

/-- The sequences within distance 1 of a codeword are the codeword and its single-bit corruptions. -/
theorem distance_le_one_iff (cw v : Codeword) :
    distance cw v ≤ 1 ↔ cw = v ∨ ∃ i < 7, cw = channel v (flipAt i) := by
  simp only [eq_channel_iff, distance, weight_le_one_iff, BitVec.xor_eq_zero_iff]

/-- Settles O35: the operand decodes to the Nibble whose encoding is within distance 1. -/
theorem everySequenceFallsInOneClass : Obligations.EverySequenceFallsInOneClass := by
  intro cw s s'
  refine ⟨(decodeNibble cw).1, _, _, hostDecode_eq cw s, ?_, ?_⟩
  · rw [hostEncode_eq]
    exact congrArg some (encodeNibble_extractData (valid_correct cw))
  · intro x y hxy
    obtain rfl : encodeNibble x = y := Option.some.inj ((hostEncode_eq x s').symm.trans hxy)
    rw [eq_comm, decodeNibble_fst_eq_iff, distance_le_one_iff]

end Sys2Proof.Machine
end

section
/-! R90: how long the outputs of the stream driver are. -/

namespace Sys2Proof.Machine

/-- Settles O43: the two lengths are those of the group-by-group statements. -/
theorem streamLengthContracts : Obligations.StreamLengthContracts := by
  intro bits codeBits s
  obtain ⟨t, out, hrun, -, hlength, -⟩ := encodeBitsGroupByGroup bits s
  obtain ⟨t', out', hrun', -, hlength', -⟩ := decodeBitsGroupByGroup codeBits s
  exact ⟨t, out, t', out', hrun, hlength, hrun', hlength'⟩

end Sys2Proof.Machine
end

section
/-! R96, R108: lists of requests. Whether one block serves them or a copy each, every response is one that
the operation table gives to its request. -/

namespace Sys2Proof.Machine

/-- R41, R43: `o` is the operation table's response to `r`, for some Bit that the reserved request drew. -/
def Answers (r : Request) (o : Response) : Prop := ∃ drawn, o = responseOf (decodeReq r) drawn

/-- R43: two responses to one request differ at most in the `par_out` of the reserved one. -/
theorem eq_and_eq_except_parOut_of_answers {r : Request} {o o' : Response} (ho : Answers r o)
    (ho' : Answers r o') : (specified r = true → o = o') ∧ o' = { o with parOut := o'.parOut } := by
  obtain ⟨drawn, rfl⟩ := ho
  obtain ⟨drawn', rfl⟩ := ho'
  exact ⟨fun hspec => responseOf_wellFormed _ hspec drawn drawn', responseOf_eq_except_parOut _ drawn drawn'⟩

/-- One block serves every list of requests, in every state. -/
theorem serve_answers (rs : List Request) (s : State) :
    ∃ t outs, serve rs s = .next (t, outs) ∧ List.Forall₂ Answers rs outs := by
  induction rs generalizing s with
  | nil => exact ⟨s, [], rfl, .nil⟩
  | cons r rs ih =>
    rw [serve_cons]
    obtain ⟨t, outs, hserve, hall⟩ := ih { req := r, out := responseOf (decodeReq r) (s.driveReq r).freeBit,
                                           draws := (s.driveReq r).draws + drawsOf (decodeReq r) }
    exact ⟨t, _, by rw [hserve, mapNext_next], .cons ⟨_, rfl⟩ hall⟩

@[simp] theorem serveEach_nil (copies : List State) : serveEach copies [] = some [] := rfl

theorem serveEach_cons (s : State) (copies : List State) (r : Request) (rs : List Request) :
    serveEach (s :: copies) (r :: rs) =
      (serveEach copies rs).map (responseOf (decodeReq r) (s.driveReq r).freeBit :: ·) := by
  simp [serveEach, respond_eq, Option.map_eq_bind]

/-- As many copies as there are requests serve them all, in whatever states the copies are. -/
theorem serveEach_answers (rs : List Request) {copies : List State} (hlength : copies.length = rs.length) :
    ∃ outs, serveEach copies rs = some outs ∧ List.Forall₂ Answers rs outs := by
  induction rs generalizing copies with
  | nil => exact ⟨[], serveEach_nil copies, .nil⟩
  | cons r rs ih =>
    obtain ⟨s, copies, rfl⟩ := List.exists_cons_of_length_eq_add_one hlength
    obtain ⟨outs, hserve, hall⟩ := ih (Nat.succ.inj hlength)
    exact ⟨_, by rw [serveEach_cons, hserve, Option.map_some], .cons ⟨_, rfl⟩ hall⟩

/-- Settles O14: every evaluation answers a next state, so every list of requests is served to its end. -/
theorem nothingEverStops : Obligations.NothingEverStops := by
  refine ⟨fun i s => ⟨_, exec_eq i s⟩, fun s => ⟨_, step_eq s⟩, fun rs s => ?_, fun rs s hspec => ?_, nofun⟩
  · obtain ⟨t, outs, hserve, hall⟩ := serve_answers rs s
    exact ⟨t, outs, hserve, hall.length_eq.symm⟩
  · obtain ⟨t, outs, hserve, -⟩ := serve_answers rs s
    exact ⟨hspec, t, outs, hserve⟩

/-- Settles O38: the `k`-th responses of the block and of the copies both answer the `k`-th request. -/
theorem oneBlockServesAsManyCopies : Obligations.OneBlockServesAsManyCopies := by
  intro rs s copies hlength
  obtain ⟨t, outs, hserve, hall⟩ := serve_answers rs s
  obtain ⟨outs', hserve', hall'⟩ := serveEach_answers rs hlength
  refine ⟨t, outs, outs', hserve, hserve', hall.length_eq.symm, hall'.length_eq.symm, fun k r hk => ?_⟩
  obtain ⟨hrs, rfl⟩ := List.getElem?_eq_some_iff.mp hk
  have houts : k < outs.length := hall.length_eq ▸ hrs
  have houts' : k < outs'.length := hall'.length_eq ▸ hrs
  exact ⟨_, _, List.getElem?_eq_getElem houts, List.getElem?_eq_getElem houts',
    eq_and_eq_except_parOut_of_answers (hall.get hrs houts) (hall'.get hrs houts')⟩

end Sys2Proof.Machine
end

section
/-! R110: the ports follow the request wires, whatever state the block was in before. -/

namespace Sys2Proof.Machine

/-- R110: driving a request puts a response to it on the ports at once. -/
theorem answers_driveReq (s : State) (r : Request) : Answers r (s.driveReq r).out :=
  ⟨s.freeBit, by rw [driveReq_eq]⟩

/-- R41, R110: a driven request finds the ports settled. -/
theorem settled_driveReq (s : State) (r : Request) : settled (s.driveReq r) = true := by
  rw [driveReq_eq]
  exact settled_responseOf r s.freeBit _

/-- R43: only the reserved request draws a free Bit. -/
theorem drawsOf_decodeReq_of_specified {r : Request} (hspec : specified r = true) :
    drawsOf (decodeReq r) = 0 :=
  if_pos hspec

/-- R33: where the ports already answer a specified request, evaluating it again changes nothing. -/
theorem step_eq_self_of_answers {s : State} (hspec : specified s.req = true) (hout : Answers s.req s.out) :
    step s = .next s := by
  have hagain : responseOf (decodeReq s.req) s.freeBit = s.out :=
    (eq_and_eq_except_parOut_of_answers ⟨s.freeBit, rfl⟩ hout).1 hspec
  rw [step_eq, hagain, drawsOf_decodeReq_of_specified hspec, Nat.add_zero]

/-- Settles O51: what stands on the ports after driving answers the request, and two answers to one request
differ at most in the reserved one's `par_out`. -/
theorem portsFollowTheRequestWires : Obligations.PortsFollowTheRequestWires := by
  have hanswers (s s' : State) (r : Request) :=
    eq_and_eq_except_parOut_of_answers (answers_driveReq s r) (answers_driveReq s' r)
  refine ⟨settled_driveReq, fun s s' r => (hanswers s s' r).1, fun s s' r => (hanswers s s' r).2,
    fun s r hspec => step_eq_self_of_answers ?_ ?_⟩
  · rwa [driveReq_req]
  · rw [driveReq_req]
    exact answers_driveReq s r

end Sys2Proof.Machine
end

section
/-! R38 to R45: the operation table, and the encoder and the decoder as inverses of each other. -/

namespace Sys2Proof

/-- Settles O6: each of the four operations is decoded from its own encoding. -/
theorem decodeOfEncodeIsIdentity : Obligations.DecodeOfEncodeIsIdentity := by
  intro i
  cases i with
  | parity exp c => exact Machine.decodeReq_encodeReq_parity exp c
  | syndrome c => exact Machine.decodeReq_encodeReq_syndrome c
  | encode d => exact Machine.decodeReq_encodeReq_encode d
  | decode c => exact Machine.decodeReq_encodeReq_decode c

/-- Settles O3: each word lies on the request wires, where its fields are read; the last one does not. -/
theorem writtenOutWordsDecode : Obligations.WrittenOutWordsDecode := by
  refine ⟨?_, ?_, ?_, ?_, ?_⟩
  all_goals decide

/-- R40: the masked request is its operation field on the two top wires. -/
theorem and_opMask (r : Request) : r &&& 0x600#11 = (fieldOp r).setWidth 11 <<< 9 := by
  ext k hk
  interval_cases k <;> simp [fieldOp, BitVec.getLsbD_eq_getElem]

/-- R40: a row's pattern is its own operation field on the two top wires, and no other row's. -/
theorem mask_and_pattern_of_mem_opTable : ∀ row ∈ opTable, row.mask = 0x600#11 ∧
    ∀ op : BitVec 2, op.setWidth 11 <<< 9 = row.pattern ↔ row = Machine.rowOf op := by
  decide

/-- R40: the row that a request selects is the one its operation field numbers. -/
theorem selects_iff_eq_rowOf (r : Request) {row : OpRow} (hrow : row ∈ opTable) :
    r &&& row.mask = row.pattern ↔ row = Machine.rowOf (fieldOp r) := by
  obtain ⟨hmask, hpattern⟩ := mask_and_pattern_of_mem_opTable row hrow
  rw [hmask, and_opMask, hpattern]

/-- Settles O4: the operation field numbers the one row that the request selects. -/
theorem exactlyOneRowSelectsARequest : Obligations.ExactlyOneRowSelectsARequest := by
  intro r
  have hmem : Machine.rowOf (fieldOp r) ∈ opTable := List.getElem_mem _
  exact ⟨_, hmem, (selects_iff_eq_rowOf r hmem).mpr rfl, (Machine.mnemonic_decodeReq r).symm,
    fun _ hrow' => (selects_iff_eq_rowOf r hrow').mp⟩

/-- R38: masking a request masks its `exp` and `arg` fields, each on its own wires. -/
theorem packRequest_fields_and (r : Request) (exp : BitVec 2) (arg : Codeword) :
    packRequest (fieldOp r) (fieldExp r &&& exp) (fieldArg r &&& arg) = r &&& packRequest 3#2 exp arg := by
  ext k hk
  interval_cases k <;> simp [packRequest, fieldOp, fieldExp, fieldArg, BitVec.getLsbD_eq_getElem]

/-- R39(b): a Nibble operand on the argument wires leaves the upper three at 0. -/
theorem setWidth_fieldNibble (r : Request) : (fieldNibble r).setWidth 7 = fieldArg r &&& 0x0F#7 := by
  ext k hk
  interval_cases k <;> simp [fieldNibble, fieldArg, BitVec.getLsbD_eq_getElem]

/-- R42: the wires that an operation on a Codeword reads, and those that ENCODE reads. -/
theorem packRequest_opMask : packRequest 3#2 3#2 0x7F#7 = 0x7FF#11 ∧ packRequest 3#2 0#2 0x7F#7 = 0x67F#11 ∧
    packRequest 3#2 0#2 0x0F#7 = 0x60F#11 := by
  decide

/-- Settles O7: each operation packs the fields it reads, and 0 on the wires it ignores. -/
theorem encodeOfDecodeClearsIgnoredBits : Obligations.EncodeOfDecodeClearsIgnoredBits := by
  intro r
  obtain ⟨hparity, hcodeword, hnibble⟩ := packRequest_opMask
  have hexp : fieldExp r &&& 3#2 = fieldExp r := BitVec.and_allOnes
  have harg : fieldArg r &&& 0x7F#7 = fieldArg r := BitVec.and_allOnes
  obtain ⟨hop, hdec⟩ | ⟨hop, hdec⟩ | ⟨hop, hdec⟩ | ⟨hop, hdec⟩ := decodeReq_cases r
  · simpa [hop, hdec, encodeReq, hexp, harg, hparity] using packRequest_fields_and r 3#2 0x7F#7
  · simpa [hop, hdec, encodeReq, harg, hcodeword] using packRequest_fields_and r 0#2 0x7F#7
  · simpa [hop, hdec, encodeReq, setWidth_fieldNibble, hnibble] using packRequest_fields_and r 0#2 0x0F#7
  · simpa [hop, hdec, encodeReq, harg, hcodeword] using packRequest_fields_and r 0#2 0x7F#7

end Sys2Proof
end

section
/-! R15, R19, R26, R33, R41: what one evaluation does to the ports and leaves alone, and what the ports hold in every
reachable state. -/

namespace Sys2Proof.Machine

/-- R93, R64, R41: `cw_out` is valid, and `nib_out`, where it is not 0, is the Nibble that `cw_out` encodes. -/
def Response.coherent (o : Response) : Prop :=
  valid o.cwOut = true ∧ (o.nibOut = 0#4 ∨ encodeNibble o.nibOut = o.cwOut)

/-- The 0 of an operation that does not produce `cw_out` is a codeword too. -/
theorem valid_zero : valid 0#7 = true := by decide

/-- R64, R93: the encoder and the corrector produce valid codewords, the extractor the Nibble of the corrected one. -/
theorem coherent_responseOf (i : Instr) (drawn : Bit) : (responseOf i drawn).coherent := by
  cases i with
  | parity exp c => cases hexp : exponent? exp <;> simp [Response.coherent, responseOf, hexp, valid_zero]
  | syndrome c => exact ⟨valid_zero, .inl rfl⟩
  | encode d => exact ⟨valid_encodeNibble d, .inl rfl⟩
  | decode c => exact ⟨valid_correct c, .inr (encodeNibble_extractData (valid_correct c))⟩

/-- Settles O18: a step drives the operation table's response, which is coherent. -/
theorem everyStepKeepsPortsCoherent : Obligations.EveryStepKeepsPortsCoherent := by
  intro s t hstep
  rw [step_eq] at hstep
  cases hstep
  exact coherent_responseOf _ s.freeBit

/-- R41: the ports that an operation does not produce, whichever Bit a reserved request drew. -/
theorem responseOf_unproduced (i : Instr) (drawn : Bit) :
    (i.mnemonic ≠ "PARITY" → (responseOf i drawn).parOut = false) ∧
    (i.mnemonic = "PARITY" ∨ i.mnemonic = "ENCODE" → (responseOf i drawn).synOut = 0#3) ∧
    (i.mnemonic = "PARITY" ∨ i.mnemonic = "SYNDROME" → (responseOf i drawn).cwOut = 0#7) ∧
    (i.mnemonic ≠ "DECODE" → (responseOf i drawn).nibOut = 0#4) := by
  cases i with
  | parity exp c => cases hexp : exponent? exp <;> simp [responseOf, hexp, Instr.mnemonic]
  | syndrome c => simp [responseOf, Instr.mnemonic]
  | encode d => simp [responseOf, Instr.mnemonic]
  | decode c => simp [responseOf, Instr.mnemonic]

/-- Settles O15: an evaluation drives the response, counts the draw of a reserved request, and does no more. -/
theorem evaluationFrame : Obligations.EvaluationFrame := by
  intro i s t hexec
  rw [exec_eq] at hexec
  cases hexec
  refine ⟨rfl, ?_, responseOf_unproduced i s.freeBit⟩
  cases hwell : i.wellFormed <;> simp [drawsOf, hwell]

/-- Settles O10: a reserved request drives the Bit it draws. -/
theorem reservedParityCompletesWithSomeBit : Obligations.ReservedParityCompletesWithSomeBit := fun cw s =>
  ⟨s.freeBit, exec_eq (.parity 3#2 cw) s⟩

/-! ### Ports that answer the request on the wires -/

/-- A step holds the request and leaves an answer to it on the ports. -/
theorem answers_of_step {s t : State} (hstep : step s = .next t) : t.req = s.req ∧ Answers t.req t.out := by
  rw [step_eq] at hstep
  cases hstep
  exact ⟨rfl, s.freeBit, rfl⟩

/-- R41: ports that answer the request are settled. -/
theorem settled_of_answers {s : State} (hout : Answers s.req s.out) : settled s = true := by
  obtain ⟨drawn, hdrawn⟩ := hout
  have hresponse := settled_responseOf s.req drawn s.draws
  rwa [← hdrawn] at hresponse

/-- Log entry 2: the model starts with the response to request 0x000 on its ports. -/
theorem answers_reset : Answers State.reset.req State.reset.out := ⟨false, by decide⟩

/-- Settles O19: after the first step the ports answer the request, and a second one drives the same answer. -/
theorem holdingASpecifiedRequestIsIdempotent : Obligations.HoldingASpecifiedRequestIsIdempotent := by
  intro s t hspec hstep
  obtain ⟨hreq, hout⟩ := answers_of_step hstep
  exact step_eq_self_of_answers (hreq ▸ hspec) hout

/-- R15, R19: driving and steps, from the model's start on, leave answers on the ports. -/
theorem answers_of_reachable {s : State} (hreach : Reachable s) : Answers s.req s.out := by
  cases hreach with
  | reset => exact answers_reset
  | drive s r _ => exact (driveReq_req s r).symm ▸ answers_driveReq s r
  | step s t _ hstep => exact (answers_of_step hstep).2

/-- Settles O52: in every reachable state the ports answer the request, and a specified request has one answer. -/
theorem portsHoldNothingBeyondTheRequest : Obligations.PortsHoldNothingBeyondTheRequest := by
  refine ⟨fun s hreach => settled_of_answers (answers_of_reachable hreach),
    fun s s' hreach hreach' hreq hspec => ?_⟩
  have hout' : Answers s.req s'.out := hreq ▸ answers_of_reachable hreach'
  exact ((eq_and_eq_except_parOut_of_answers (answers_of_reachable hreach) hout').1 hspec).symm

/-- Settles O1: the start's ports answer request 0x000, which is a specified one. -/
theorem resetPortsAnswerTheDrivenRequest : Obligations.ResetPortsAnswerTheDrivenRequest := by
  have hspec : specified State.reset.req = true := by decide
  exact ⟨settled_of_answers answers_reset, rfl, step_eq_self_of_answers hspec answers_reset⟩

/-- A table word that decodes fits on the request wires and decodes as the request they carry. -/
theorem decodeReq_of_decodeTableWord {nbits w : Nat} {i : Instr} (hword : decodeTableWord nbits w = some i) :
    decodeReq (requestOfNat (tableWord nbits w)) = i := by
  rw [decodeTableWord, decodeWord] at hword
  by_cases hfits : tableWord nbits w < 2 ^ 11
  · rw [if_pos hfits] at hword
    exact Option.some.inj hword
  · rw [if_neg hfits] at hword
    cases hword

/-- Settles O2: a step evaluates the request on the wires, and driving puts the word's request there. -/
theorem stepRunsTheDecodedRequest : Obligations.StepRunsTheDecodedRequest := by
  have hstep (s : State) : step s = exec (decodeReq s.req) s := rfl
  refine ⟨hstep, fun s r => ⟨driveReq_req s r, settled_driveReq s r⟩, fun s nbits w i hword => ?_⟩
  rw [hstep, State.withFetchWord, driveReq_req, decodeReq_of_decodeTableWord hword]
  rfl

end Sys2Proof.Machine
end

section
/-! R51, R56, R115: the source's loops, and a host that rebuilds ENCODE from PARITY requests. -/

namespace Sys2Proof.Machine

/-! ### The loops at length 7 -/

/-- R29(a): element `i` of the list is bit `i` of the codeword, and there is none past the end. -/
theorem getD_bitsOfCodeword (cw : Codeword) (i : Nat) : (bitsOfCodeword cw).getD i false = cw.getLsbD i := by
  match i with
  | 0 | 1 | 2 | 3 | 4 | 5 | 6 => rfl
  | i + 7 => exact (BitVec.getLsbD_of_ge cw (i + 7) (Nat.le_add_left 7 i)).symm

/-- The loop's running XOR over a list of positions is the XOR over them, whatever it starts from. -/
theorem foldl_xor_getD (cw : Codeword) (is : List Nat) (acc : Bit) :
    is.foldl (fun r i => r ^^ (bitsOfCodeword cw).getD i false) acc = (acc ^^ xorOver cw is) := by
  induction is generalizing acc with
  | nil => simp [xorOver]
  | cons i is ih => rw [List.foldl_cons, ih, getD_bitsOfCodeword, xorOver_cons, Bool.xor_assoc]

/-- R51: no position before index `mask - 1` is in the group, so the loop misses none. -/
theorem filter_inGroup_range' (p : Fin 3) :
    (List.range' (mask p - 1) (7 - (mask p - 1))).filter (inGroup p) = group p := by
  revert p; decide

/-- R51, R52: at length 7 the source's parity loop computes the parity. -/
theorem parityN_bitsOfCodeword (cw : Codeword) (p : Fin 3) : parityN (bitsOfCodeword cw) p = parity cw p := by
  have hlength : (bitsOfCodeword cw).length = 7 := rfl
  rw [parityN, hlength, filter_inGroup_range', foldl_xor_getD, Bool.false_xor, parity]

/-- The masks of the legal exponents fit in 7 bits, and no other mask does. -/
theorem mask_le_seven_iff (p : Nat) : mask p ≤ 7 ↔ p < 3 := by
  have hpow : 2 ^ p < 2 ^ 3 ↔ p < 3 := Nat.pow_lt_pow_iff_right (by decide)
  rw [mask]
  omega

/-- R56: one round of the accumulator, "if the result is 1, sets bit p", as a number. -/
theorem ite_add_eq_add_mul_toNat (acc n : Nat) (b : Bit) : (if b then acc + n else acc) = acc + n * b.toNat := by
  cases b <;> simp

/-- R56, R57: at length 7 the source's syndrome loop takes the three parities and stops. -/
theorem syndromeN_bitsOfCodeword (cw : Codeword) : syndromeN (bitsOfCodeword cw) = (syndrome cw).toNat := by
  have h0 : parityN (bitsOfCodeword cw) 0 = (syndrome cw)[0] :=
    (parityN_bitsOfCodeword cw 0).trans (getLsbD_syndrome cw 0).symm
  have h1 : parityN (bitsOfCodeword cw) 1 = (syndrome cw)[1] :=
    (parityN_bitsOfCodeword cw 1).trans (getLsbD_syndrome cw 1).symm
  have h2 : parityN (bitsOfCodeword cw) 2 = (syndrome cw)[2] :=
    (parityN_bitsOfCodeword cw 2).trans (getLsbD_syndrome cw 2).symm
  have hlength : (bitsOfCodeword cw).length = 7 := rfl
  rw [toNat_eq_weighted_bits]
  simp [syndromeN, hlength, syndromeLoop, mask, parityPos, h0, h1, h2, ite_add_eq_add_mul_toNat, Bool.toNat,
    Bool.cond_eq_ite]

/-- Settles O24: at length 7 the loops run over the positions of R52; every other length and mask is refused. -/
theorem sourceLoopsAgreeAtLengthSeven : Obligations.SourceLoopsAgreeAtLengthSeven := by
  refine ⟨fun cw s => ⟨fun p => ?_, ?_⟩, fun bits hlength => ⟨if_neg hlength, fun p => ?_⟩, fun bits p hp => ?_⟩
  · have hguard : (bitsOfCodeword cw).length = Config.codewordBits ∧ mask p ≤ (bitsOfCodeword cw).length :=
      ⟨rfl, (mask_le_seven_iff p).mpr p.isLt⟩
    rw [hostParity_ofNat, sourceParityCheck, if_pos hguard, parityN_bitsOfCodeword]
  · have hlength : (bitsOfCodeword cw).length = Config.codewordBits := rfl
    rw [hostSyndrome_eq, sourceSyndrome, if_pos hlength, syndromeN_bitsOfCodeword, Option.map_some]
  · exact if_neg fun hguard => hlength hguard.1
  · refine if_neg ?_
    rintro ⟨hlength, hmask⟩
    rw [hlength, mask_le_seven_iff] at hmask
    omega

/-! ### ENCODE from three PARITY requests -/

/-- Settles O27: the three answers are the parities of the placed data, which ENCODE stores all at once (R63). -/
theorem encodeRebuiltFromParityRequests : Obligations.EncodeRebuiltFromParityRequests := by
  intro d s s'
  refine ⟨encodeNibble d, ?_, hostEncode_eq d s'⟩
  have h0 : hostParity 0#2 (placeData d) s = some (parity (placeData d) 0) := hostParity_ofNat 0 _ s
  have h1 : hostParity 1#2 (placeData d) s = some (parity (placeData d) 1) := hostParity_ofNat 1 _ s
  have h2 : hostParity 2#2 (placeData d) s = some (parity (placeData d) 2) := hostParity_ofNat 2 _ s
  rw [encodeNibble_eq_foldl_storeParity]
  simp only [hostEncodeFromParity, h0, h1, h2]
  rfl

end Sys2Proof.Machine
end

section
/-! R68, R70, R88: what the host sees of a correction, and what becomes of two or more errors. -/

namespace Sys2Proof.Machine

/-- R68: the corrector changes the operand exactly when the syndrome is not 0, by the weight of the error it adds. -/
theorem correct_eq_self_iff (cw : Codeword) (syn : Syndrome) : correct cw syn = cw ↔ syn = 0#3 := by
  have hadded : correct cw syn = cw ↔ locatedError syn = 0#7 := by
    rw [correct_eq_xor_locatedError, ← BitVec.xor_right_inj cw (y := 0#7), BitVec.xor_zero]
  rw [hadded]
  constructor
  · intro hnone
    rw [← syndrome_locatedError syn, hnone]
    rfl
  · rintro rfl
    exact locatedError_zero

/-- Settles O36: a correction adds the error that the syndrome names, which is 0 only for syndrome 0. -/
theorem correctionIsVisibleInTheSyndrome : Obligations.CorrectionIsVisibleInTheSyndrome := by
  intro cw s
  have hclean := correct_eq_self_iff cw (syndrome cw)
  refine ⟨_, respond_decode cw s, ?_, hclean.symm⟩
  rw [Response.corrected, bne_iff_ne]
  exact (not_congr hclean).symm

/-! ### Errors of weight 2 and more -/

/-- A 1 in a sum of two errors is a 1 in one of them. -/
theorem weight_xor_le (a b : Codeword) : weight (a ^^^ b) ≤ weight a + weight b := by
  rw [weight, weight, weight]
  induction List.range Config.codewordBits with
  | nil => rfl
  | cons i is ih =>
    simp only [List.countP_cons, BitVec.getLsbD_xor]
    cases a.getLsbD i <;> cases b.getLsbD i <;> simp <;> omega

theorem weight_flipAt_xor_flipAt : ∀ i < 7, ∀ j < 7, i ≠ j → weight (flipAt i ^^^ flipAt j) = 2 := by
  decide

/-- R22: the channel moves a codeword by the weight of the error. -/
theorem distance_channel (v e : Codeword) : distance (channel v e) v = weight e := by
  rw [distance, (eq_channel_iff (channel v e) v e).mp rfl]

theorem distance_comm (a b : Codeword) : distance a b = distance b a := by
  rw [distance, distance, BitVec.xor_comm]

theorem distance_triangle (a b c : Codeword) : distance a c ≤ distance a b + distance b c := by
  have hvia : a ^^^ c = a ^^^ b ^^^ (b ^^^ c) := by
    rw [BitVec.xor_assoc, ← BitVec.xor_assoc b b c, BitVec.xor_self, BitVec.zero_xor]
  rw [distance, hvia]
  exact weight_xor_le _ _

theorem distance_correct_le_one (cw : Codeword) (syn : Syndrome) : distance cw (correct cw syn) ≤ 1 := by
  rw [distance_correct]
  split_ifs <;> decide

/-- R70(b): two or more errors leave the codeword sent out of the decoder's reach. -/
theorem decodeNibble_channel_fst_ne (x : Nibble) {e : Codeword} (hweight : 2 ≤ weight e) :
    (decodeNibble (channel (encodeNibble x) e)).1 ≠ x := by
  rw [ne_eq, decodeNibble_fst_eq_iff, distance_channel]
  omega

/-- R70(b), R72: a DECODE response names a Nibble and its codeword, so where the Nibble is wrong the codeword is. -/
theorem encodeNibble_decodeNibble_fst (cw : Codeword) : encodeNibble (decodeNibble cw).1 = (decodeNibble cw).2.1 :=
  encodeNibble_extractData (valid_correct cw)

/-- Two errors are decoded to a codeword one flip further, which is no closer than the code's minimum distance. -/
theorem distance_decodeNibble_eq_three (x : Nibble) {e : Codeword} (hweight : weight e = 2) :
    distance (encodeNibble x) (decodeNibble (channel (encodeNibble x) e)).2.1 = 3 := by
  have hwrong := decodeNibble_channel_fst_ne x hweight.ge
  have hfar := three_le_distance_encodeNibble hwrong.symm
  rw [encodeNibble_decodeNibble_fst] at hfar
  have hsent : distance (encodeNibble x) (channel (encodeNibble x) e) = 2 := by
    rw [distance_comm, distance_channel, hweight]
  have hanswer := distance_correct_le_one (channel (encodeNibble x) e) (syndrome (channel (encodeNibble x) e))
  have htriangle := distance_triangle (encodeNibble x) (channel (encodeNibble x) e)
    (decodeNibble (channel (encodeNibble x) e)).2.1
  rw [hsent] at htriangle
  exact le_antisymm (htriangle.trans (Nat.add_le_add_left hanswer 2)) hfar

/-- Settles O33: the codeword sent is out of the decoder's reach, and the received word has the error's syndrome. -/
theorem multipleErrorsAreNeverRecovered : Obligations.MultipleErrorsAreNeverRecovered := by
  constructor
  · intro x e s s' hweight
    have hwrong := decodeNibble_channel_fst_ne x hweight
    refine ⟨_, _, _, _, hostEncode_eq x s, hostDecode_eq _ s', hwrong, fun hcw => hwrong ?_, valid_correct _,
      distance_correct_le_one _ _, ?_⟩
    · exact (congrArg extractData hcw).trans (extractData_encodeNibble x)
    · rw [hostSyndrome_eq, ← syndrome_channel_encodeNibble x]
  · intro x i j s s' hi hj hij
    have hweight := weight_flipAt_xor_flipAt i hi j hj hij
    have hsyn : syndrome (channel (encodeNibble x) (flipAt i ^^^ flipAt j)) =
        BitVec.ofNat 3 (i + 1) ^^^ BitVec.ofNat 3 (j + 1) := by
      rw [syndrome_channel_encodeNibble, syndrome_xor, syndrome_flipAt hi, syndrome_flipAt hj]
    refine ⟨_, _, _, hostEncode_eq x s, ?_, distance_decodeNibble_eq_three x hweight,
      decodeNibble_channel_fst_ne x hweight.ge⟩
    rw [hostDecode_eq, ← hsyn]
    rfl

end Sys2Proof.Machine
end

section
/-! R34, R75, R84: specified requests in any order, and streams that pass the channel. -/

namespace Sys2Proof.Machine

/-- Settles O39: a specified request's response is a function of the request, so permuting the requests permutes the
pairs. -/
theorem servingOrderIsImmaterial : Obligations.ServingOrderIsImmaterial := by
  intro rs rs' s s' hperm hspec
  obtain ⟨t, ht⟩ := serve_of_specified hspec s
  obtain ⟨t', ht'⟩ := serve_of_specified (fun r hr => hspec r (hperm.mem_iff.mp hr)) s'
  refine ⟨t, t', _, _, ht, ht', ?_⟩
  rw [← List.map_prod_left_eq_zip, ← List.map_prod_left_eq_zip]
  exact hperm.map _

/-! ### Groups as blocks of a bit stream -/

/-- R77: the groups of one width, in order, are the stream less the remainder. -/
theorem flatMap_range_take_drop {α : Type} (xs : List α) (w n : Nat) :
    ((List.range n).flatMap fun g => (xs.drop (w * g)).take w) = xs.take (w * n) := by
  induction n with
  | zero => rfl
  | succ n ih => rw [List.range_succ, List.flatMap_append, ih, List.flatMap_singleton, Nat.mul_succ, List.take_add]

/-- A block of a stream, element by element. -/
theorem take_drop_eq_map_getD {α : Type} {xs : List α} {a w : Nat} (hfits : a + w ≤ xs.length) (d : α) :
    (xs.drop a).take w = (List.range w).map fun i => xs.getD (a + i) d := by
  refine List.ext_getElem (by simp; omega) fun i hi hi' => ?_
  have hlt : a + i < xs.length := by simp at hi'; omega
  simp [hlt]

/-- R74: group `g` of 4 is the stream's bits `4g` to `4g+3`. -/
theorem bitsOfNibble_nibbleAt {bits : List Bit} {g : Nat} (hg : g < bits.length / 4) :
    bitsOfNibble (nibbleAt bits g) = (bits.drop (4 * g)).take 4 := by
  rw [nibbleAt, bitsOfNibble_nibbleOf, take_drop_eq_map_getD (by omega) false]
  rfl

/-- R75: group `g` of 7 is the stream's bits `7g` to `7g+6`. -/
theorem bitsOfCodeword_codewordAt {coded : List Bit} {g : Nat} (hg : g < coded.length / 7) :
    bitsOfCodeword (codewordAt coded g) = (coded.drop (7 * g)).take 7 := by
  rw [codewordAt, bitsOfCodeword_codewordOf, take_drop_eq_map_getD (by omega) false]
  rfl

/-! ### The channel on a coded stream -/

/-- R22: the channel adds a codeword's errors bit by bit. -/
theorem bitsOfCodeword_channel (cw e : Codeword) :
    bitsOfCodeword (channel cw e) = channelBits (bitsOfCodeword cw) (bitsOfCodeword e) := by
  simp [bitsOfCodeword, channel, channelBits]

/-- R22: the channel adds a stream's errors group by group. -/
theorem codewordAt_channelBits {coded errs : List Bit} (hlength : errs.length = coded.length) {g : Nat}
    (hg : g < coded.length / 7) :
    codewordAt (channelBits coded errs) g = channel (codewordAt coded g) (codewordAt errs g) := by
  have hreceived : (channelBits coded errs).length = coded.length := by simp [channelBits, hlength]
  refine bitsOfCodeword_injective ?_
  rw [bitsOfCodeword_channel, bitsOfCodeword_codewordAt (hreceived.symm ▸ hg), bitsOfCodeword_codewordAt hg,
    bitsOfCodeword_codewordAt (hlength.symm ▸ hg), channelBits, List.drop_zipWith, List.take_zipWith, channelBits]

/-- The weight of an error is how many 1s its bits hold. -/
theorem weight_eq_count (e : Codeword) : weight e = (bitsOfCodeword e).count true := by
  have hbits : bitsOfCodeword e = (List.range 7).map e.getLsbD := rfl
  rw [hbits, List.count, List.countP_map, weight]
  exact List.countP_congr fun i _ => by simp

/-- R74: the coded stream of a list of Nibbles. -/
def encodeNibbles (ds : List Nibble) : List Bit := ds.flatMap fun d => bitsOfCodeword (encodeNibble d)

theorem length_encodeNibbles (ds : List Nibble) : (encodeNibbles ds).length = 7 * ds.length :=
  length_flatMap_of_width (w := 7) (fun _ => rfl) ds

/-- Group `g` of a coded stream is the encoding of Nibble `g`. -/
theorem codewordAt_encodeNibbles (ds : List Nibble) {g : Nat} (hg : g < ds.length) :
    codewordAt (encodeNibbles ds) g = encodeNibble ds[g] := by
  have hfits : g < (encodeNibbles ds).length / 7 := by
    rw [length_encodeNibbles]
    omega
  refine bitsOfCodeword_injective ?_
  rw [bitsOfCodeword_codewordAt hfits]
  exact take_drop_flatMap_of_width (w := 7) (fun _ => rfl) ds hg

/-- R84: a received group whose error has at most one 1 decodes to the Nibble that was encoded there. -/
theorem decodeNibble_codewordAt_received (ds : List Nibble) {errs : List Bit}
    (hlength : errs.length = 7 * ds.length) {g : Nat} (hg : g < ds.length)
    (hsingle : ((errs.drop (7 * g)).take 7).count true ≤ 1) :
    (decodeNibble (codewordAt (channelBits (encodeNibbles ds) errs) g)).1 = ds[g] := by
  have hcoded := length_encodeNibbles ds
  have hweight : weight (codewordAt errs g) ≤ 1 := by
    rwa [weight_eq_count, bitsOfCodeword_codewordAt (by omega)]
  rw [codewordAt_channelBits (hlength.trans hcoded.symm) (by omega), codewordAt_encodeNibbles ds hg,
    decodeNibble_channel_encodeNibble _ hweight]

/-- R84, R75: a coded stream in which each codeword takes at most one flip decodes to the Nibbles encoded. -/
theorem decodeBitsOn_received (ds : List Nibble) {errs : List Bit} (s : State)
    (hlength : errs.length = 7 * ds.length)
    (hsingle : ∀ g < ds.length, ((errs.drop (7 * g)).take 7).count true ≤ 1) :
    ∃ t, decodeBitsOn (channelBits (encodeNibbles ds) errs) s = .next (t, ds.flatMap bitsOfNibble) := by
  obtain ⟨t, ht⟩ := decodeBitsOn_eq (channelBits (encodeNibbles ds) errs) s
  have hgroups : (channelBits (encodeNibbles ds) errs).length / 7 = ds.length := by
    rw [channelBits, List.length_zipWith, length_encodeNibbles, hlength]
    omega
  have hdecoded : (List.range ds.length).map
      (fun g => (decodeNibble (codewordAt (channelBits (encodeNibbles ds) errs) g)).1) = ds := by
    refine List.ext_getElem (by simp) fun g _ hg => ?_
    rw [List.getElem_map, List.getElem_range, decodeNibble_codewordAt_received ds hlength hg (hsingle g hg)]
  refine ⟨t, ht.trans ?_⟩
  conv_rhs => rw [← hdecoded, List.flatMap_map, ← hgroups]

/-- R74: the groups of 4 of a stream, as Nibbles. -/
theorem flatMap_bitsOfNibble_nibblesOf (bits : List Bit) :
    (nibblesOf bits).flatMap bitsOfNibble = bits.take (4 * (bits.length / 4)) := by
  rw [nibblesOf_eq_map_nibbleAt, List.flatMap_map, ← flatMap_range_take_drop]
  exact List.flatMap_congr fun g hg => bitsOfNibble_nibbleAt (List.mem_range.mp hg)

/-- Settles O44: the coded stream holds the encodings of the groups, and these decode to the groups. -/
theorem streamSurvivesOneErrorPerCodeword : Obligations.StreamSurvivesOneErrorPerCodeword := by
  intro bits errs s s' hlength hsingle
  have hgroups : (nibblesOf bits).length = bits.length / 4 := by
    rw [nibblesOf_eq_map_nibbleAt, List.length_map, List.length_range]
  obtain ⟨t, ht⟩ := encodeBitsOn_eq bits s
  obtain ⟨t', ht'⟩ := decodeBitsOn_received (nibblesOf bits) (errs := errs) s' (hgroups.symm ▸ hlength)
    (hgroups.symm ▸ hsingle)
  rw [flatMap_bitsOfNibble_nibblesOf, encodeNibbles, nibblesOf_eq_map_nibbleAt, List.flatMap_map] at ht'
  exact ⟨t, t', _, ht, ht'⟩

/-- R76: a byte is its high nibble before its low one. -/
theorem bitsOfByte_eq (b : Byte) :
    bitsOfByte b = bitsOfNibble (highNibble b) ++ bitsOfNibble (lowNibble b) := by
  rw [highNibble, lowNibble, bitsOfNibble_nibbleOf, bitsOfNibble_nibbleOf]
  rfl

/-- R76: the Nibbles of a byte sequence, in the order in which they are encoded. -/
def nibblesOfBytes (bytes : List Byte) : List Nibble := bytes.flatMap fun b => [highNibble b, lowNibble b]

theorem flatMap_nibblesOfBytes (bytes : List Byte) (f : Nibble → List Bit) :
    (nibblesOfBytes bytes).flatMap f = bytes.flatMap fun b => f (highNibble b) ++ f (lowNibble b) := by
  simp [nibblesOfBytes, List.flatMap_assoc]

/-- Settles O45: the coded stream holds the encodings of the bytes' Nibbles, and these decode to the Nibbles. -/
theorem bytesSurviveOneErrorPerCodeword : Obligations.BytesSurviveOneErrorPerCodeword := by
  intro bytes errs s s' hlength hsingle
  obtain ⟨t, ht⟩ := encodeBytesOn_eq bytes s
  have hnibbles : (nibblesOfBytes bytes).length = 2 * bytes.length :=
    length_flatMap_of_width (w := 2) (fun _ => rfl) bytes
  obtain ⟨t', ht'⟩ := decodeBitsOn_received (nibblesOfBytes bytes) (errs := errs) s' (by omega)
    (hnibbles.symm ▸ hsingle)
  rw [encodeNibbles, flatMap_nibblesOfBytes, flatMap_nibblesOfBytes] at ht'
  simp only [← bitsOfByte_eq] at ht'
  exact ⟨t, t', _, ht, ht'⟩

end Sys2Proof.Machine
end

section
/-! R78 to R80: stream calls into a caller's buffer, their groups in any order. -/

namespace Sys2Proof.Machine

/-! ### Sizes -/

theorem width_pos (op : StreamOp) : 0 < op.width := by
  cases op <;> exact Nat.succ_pos _

/-- R74, R75: what a request appends is one group's output. -/
theorem length_answer (op : StreamOp) (r : Request) : (op.answer r).length = op.width := by
  cases op <;> rfl

/-- R78: the whole output of a stream call. -/
def StreamOp.output (op : StreamOp) : List Bit := op.requests.flatMap op.answer

/-- R78: the output has the exact size. -/
theorem length_output (op : StreamOp) : op.output.length = op.size :=
  length_flatMap_of_width (length_answer op) op.requests

/-- A stream call answers its output, in any state. -/
theorem streamOn_eq_output (op : StreamOp) (s : State) : ∃ t, streamOn op s = .next (t, op.output) :=
  streamOn_eq op s

/-- R80: group `g`'s answer is what the output holds from bit `w*g` on. -/
theorem getElem?_answer {op : StreamOp} {g : Nat} {r : Request} (hr : op.requests[g]? = some r) {j : Nat}
    (hj : j < op.width) : (op.answer r)[j]? = op.output[op.width * g + j]? := by
  obtain ⟨hg, rfl⟩ := List.getElem?_eq_some_iff.mp hr
  rw [← take_drop_flatMap_of_width (length_answer op) op.requests hg, List.getElem?_take_of_lt hj,
    List.getElem?_drop, StreamOp.output]

/-- A place at a buffer's start. -/
theorem place_zero (buf xs : List Bit) : place buf 0 xs = xs ++ buf.drop xs.length := by
  simp [place]

/-- Settles O47: the sizes are those of the group-by-group statements, and both calls check them first. -/
theorem tooSmallBufferFailsFast : Obligations.TooSmallBufferFailsFast := by
  refine ⟨fun bits => ?_, fun coded => ?_, fun bytes => ?_, fun op buf s =>
    ⟨fun hsmall => ⟨if_pos hsmall, fun order => if_pos hsmall⟩, fun hfits => ?_⟩⟩
  · rw [StreamOp.size, length_requests_encodeBits]
    rfl
  · rw [StreamOp.size, length_requests_decodeBits]
    rfl
  · rw [StreamOp.size, length_requests_encodeBytes, ← Nat.mul_assoc]
    rfl
  · obtain ⟨t, ht⟩ := streamOn_eq_output op s
    refine ⟨t, _, ht, length_output op, ?_⟩
    rw [streamInto, if_neg hfits.not_gt, ht, mapNext_next, place_zero, length_output]

/-! ### Groups in any order (R80) -/

/-- A request of the stream is answered, and what is read off the answer is its group's output. -/
theorem issue_of_mem_requests {op : StreamOp} {r : Request} (hr : r ∈ op.requests) (s : State) :
    ∃ t, issue r s = .next t ∧ op.read t.out = op.answer r := by
  refine ⟨_, issue_eq r s, ?_⟩
  rw [responseOf_wellFormed _ (specified_of_mem_requests op r hr) _ false, StreamOp.answer]

/-- R80: evaluating a group of the stream places its answer, and the rest of the order follows. -/
theorem fillGroups_cons {op : StreamOp} {g : Nat} {r : Request} (hr : op.requests[g]? = some r) (order : List Nat)
    (s : State) (buf : List Bit) : ∃ t, fillGroups op (g :: order) s buf =
      fillGroups op order t (place buf (op.width * g) (op.answer r)) := by
  obtain ⟨t, hissue, hread⟩ := issue_of_mem_requests (List.mem_of_getElem? hr) s
  exact ⟨t, by simp only [fillGroups, hr, hissue, hread]⟩

/-- R80: after any groups of the stream, in any order, their output bits stand in the buffer, and every other bit is
as it was. -/
theorem fillGroups_eq {op : StreamOp} {order : List Nat} (horder : ∀ g ∈ order, g < op.requests.length) (s : State)
    {buf : List Bit} (hfits : op.size ≤ buf.length) :
    ∃ t out, fillGroups op order s buf = .next (t, out) ∧
      ∀ k, out[k]? = if k / op.width ∈ order then op.output[k]? else buf[k]? := by
  induction order generalizing s buf with
  | nil => exact ⟨s, buf, rfl, fun k => (if_neg List.not_mem_nil).symm⟩
  | cons g order ih =>
    obtain ⟨hg, hrest⟩ := List.forall_mem_cons.mp horder
    have hr := List.getElem?_eq_getElem hg
    have hplace : op.width * g + (op.answer op.requests[g]).length ≤ buf.length := by
      rw [length_answer, ← Nat.mul_succ]
      exact (Nat.mul_le_mul_left _ hg).trans hfits
    obtain ⟨t, ht⟩ := fillGroups_cons hr order s buf
    obtain ⟨t', out, hfill, hout⟩ := ih hrest t ((place_length _ _ _ hplace).symm ▸ hfits)
    refine ⟨t', out, ht.trans hfill, fun k => ?_⟩
    have hblock : op.width * g ≤ k ∧ k < op.width * g + op.width ↔ k / op.width = g := by
      rw [Nat.div_eq_iff (width_pos op), Nat.mul_comm g]
      have hpos := width_pos op
      omega
    rw [hout, getElem?_place _ _ _ _ hplace, length_answer, if_congr hblock rfl rfl]
    by_cases hlater : k / op.width ∈ order
    · rw [if_pos hlater, if_pos (List.mem_cons_of_mem g hlater)]
    by_cases hhere : k / op.width = g
    · obtain ⟨hlo, hhi⟩ := hblock.mpr hhere
      rw [if_neg hlater, if_pos hhere, if_pos (List.mem_cons.mpr (.inl hhere)), getElem?_answer hr (by omega),
        Nat.add_sub_cancel' hlo]
    · rw [if_neg hlater, if_neg hhere, if_neg (List.not_mem_cons_of_ne_of_not_mem hhere hlater)]

/-- Settles O46: the order names every group, so every bit of the output stands in the buffer. -/
theorem groupOrderIsImmaterial : Obligations.GroupOrderIsImmaterial := by
  intro op order buf s s' hperm hfits
  have hmem (g : Nat) : g ∈ order ↔ g < op.requests.length := hperm.mem_iff.trans List.mem_range
  obtain ⟨t, ht⟩ := streamOn_eq_output op s
  obtain ⟨t', out, hfill, hout⟩ := fillGroups_eq (fun g => (hmem g).mp) s' hfits
  have hwhole : out = op.output ++ buf.drop op.size := by
    refine List.ext_getElem? fun k => ?_
    have hk : k / op.width ∈ order ↔ k < op.output.length := by
      rw [hmem, Nat.div_lt_iff_lt_mul (width_pos op), Nat.mul_comm, length_output, StreamOp.size]
    rw [hout, if_congr hk rfl rfl, List.getElem?_append, List.getElem?_drop, length_output]
    split_ifs with hinside
    · rfl
    · rw [Nat.add_sub_cancel' (Nat.not_lt.mp hinside)]
  exact ⟨t, t', _, ht, length_output op, by rw [fillInto, if_neg hfits.not_gt, hfill, hwhole]⟩

end Sys2Proof.Machine
end

section
/-! R35, U6: concurrent calls into one buffer. -/

namespace Sys2Proof.Machine

/-! ### Running the calls -/

/-- Each call answered what its own copy of the block gives it. -/
abbrev Ran (calls : List Call) (us : List (State × List Bit)) : Prop :=
  List.Forall₂ (fun call u => streamOn call.op call.block = .next u) calls us

/-- R34: every call is answered. -/
theorem exists_ran (calls : List Call) : ∃ us, Ran calls us := by
  induction calls with
  | nil => exact ⟨[], .nil⟩
  | cons call calls ih =>
    obtain ⟨us, hran⟩ := ih
    obtain ⟨t, ht⟩ := streamOn_eq_output call.op call.block
    exact ⟨_, .cons ht hran⟩

theorem runCalls_of_ran {calls : List Call} {us : List (State × List Bit)} (hran : Ran calls us) :
    runCalls calls = .next us := by
  induction hran with
  | nil => rfl
  | cons hcall _ ih => simp only [runCalls, hcall, ih, mapNext_next]

/-- The region that a call writes, from what it answered. -/
def regionOf (run : Call × (State × List Bit)) : Region := (run.1.offset, run.2.2)

/-- R79: a region that does not fit is a fault, whichever call's it is. -/
theorem callWith_of_not_fits {buf : List Bit} {calls : List Call}
    (hsmall : ∃ call ∈ calls, buf.length < call.offset + call.op.size) (winner : Nat → Nat) :
    callWith winner buf calls = .error .bufferTooSmall :=
  if_pos (by simpa using hsmall)

/-- R35: where all regions fit, the buffer holds what the calls wrote there. -/
theorem callWith_of_fits {buf : List Bit} {calls : List Call} {us : List (State × List Bit)}
    (hfits : ∀ call ∈ calls, call.offset + call.op.size ≤ buf.length) (hran : Ran calls us) (winner : Nat → Nat) :
    callWith winner buf calls = .ok (.next (us.map Prod.fst, overlay winner buf ((calls.zip us).map regionOf))) := by
  rw [callWith, if_neg (by simpa using hfits), runCalls_of_ran hran, mapNext_next,
    List.map_zip_eq_zipWith]
  rfl

/-! ### Who writes an element -/

theorem covers_iff (call : Call) (k : Nat) :
    call.covers k = true ↔ call.offset ≤ k ∧ k < call.offset + call.op.size := by
  simp [Call.covers]

/-- A call's output fills its region. -/
theorem length_of_streamOn {op : StreamOp} {s : State} {u : State × List Bit} (hrun : streamOn op s = .next u) :
    u.2.length = op.size := by
  obtain ⟨t, ht⟩ := streamOn_eq_output op s
  cases hrun.symm.trans ht
  exact length_output op

/-- What a call writes at element `k`, if its region holds it. -/
def writtenBy (k : Nat) (run : Call × (State × List Bit)) : Option Bit :=
  if run.1.covers k then run.2.2[k - run.1.offset]? else none

theorem writtenBy_eq_some_iff {k : Nat} {call : Call} {u : State × List Bit} {b : Bit} :
    writtenBy k (call, u) = some b ↔ call.covers k = true ∧ u.2[k - call.offset]? = some b := by
  simp [writtenBy]

/-- A call that answered writes each element of its region. -/
theorem exists_output_of_covers {call : Call} {u : State × List Bit} (hrun : streamOn call.op call.block = .next u)
    {k : Nat} (hcovers : call.covers k = true) : ∃ b, u.2[k - call.offset]? = some b := by
  obtain ⟨hlo, hhi⟩ := (covers_iff call k).mp hcovers
  have hlength := length_of_streamOn hrun
  exact ⟨_, List.getElem?_eq_getElem (by omega)⟩

/-- The values written at an element, call by call. -/
theorem writersAt_eq_filterMap {calls : List Call} {us : List (State × List Bit)} (hran : Ran calls us) (k : Nat) :
    writersAt ((calls.zip us).map regionOf) k = (calls.zip us).filterMap (writtenBy k) := by
  rw [writersAt, List.filterMap_map]
  refine List.filterMap_congr fun (call, u) hrun => ?_
  have hlength := length_of_streamOn (List.forall₂_zip hran hrun)
  change (if call.offset ≤ k then u.2[k - call.offset]? else none) = writtenBy k (call, u)
  rw [writtenBy, if_congr (covers_iff call k) rfl rfl]
  by_cases hlo : call.offset ≤ k
  · by_cases hhi : k < call.offset + call.op.size
    · rw [if_pos hlo, if_pos ⟨hlo, hhi⟩]
    · rw [if_pos hlo, if_neg fun hin => hhi hin.2, List.getElem?_eq_none (by omega)]
  · rw [if_neg hlo, if_neg fun hin => hlo hin.1]

/-- U6: the values written at an element are those of the calls whose regions hold it. -/
theorem mem_writersAt_iff {calls : List Call} {us : List (State × List Bit)} (hran : Ran calls us) (k : Nat)
    (b : Bit) : b ∈ writersAt ((calls.zip us).map regionOf) k ↔
      ∃ call u, (call, u) ∈ calls.zip us ∧ call.covers k = true ∧ u.2[k - call.offset]? = some b := by
  simp only [writersAt_eq_filterMap hran, List.mem_filterMap, Prod.exists, writtenBy_eq_some_iff]

/-- An element in no call's region is written by none. -/
theorem writersAt_eq_nil {calls : List Call} {us : List (State × List Bit)} (hran : Ran calls us) {k : Nat}
    (hnone : ∀ call ∈ calls, call.covers k = false) : writersAt ((calls.zip us).map regionOf) k = [] := by
  refine List.eq_nil_iff_forall_not_mem.mpr fun b hb => ?_
  obtain ⟨call, u, hmem, hcovers, -⟩ := (mem_writersAt_iff hran k b).mp hb
  exact Bool.false_ne_true ((hnone call (List.of_mem_zip hmem).1).symm.trans hcovers)

/-- An element in a call's region is written by some call. -/
theorem writersAt_ne_nil {calls : List Call} {us : List (State × List Bit)} (hran : Ran calls us) {k : Nat}
    (hsome : ∃ call ∈ calls, call.covers k = true) : writersAt ((calls.zip us).map regionOf) k ≠ [] := by
  obtain ⟨call, hmem, hcovers⟩ := hsome
  rw [← List.map_fst_zip hran.length_eq.le] at hmem
  obtain ⟨⟨_, u⟩, hrun, rfl⟩ := List.mem_map.mp hmem
  obtain ⟨b, hb⟩ := exists_output_of_covers (List.forall₂_zip hran hrun) hcovers
  exact List.ne_nil_of_mem ((mem_writersAt_iff hran k b).mpr ⟨_, u, hrun, hcovers, hb⟩)

/-- Settles O48: the winner's value is among those written, and these are the outputs of the calls with a region
there. -/
theorem concurrentCallsWriteWhatSomeCallWrote : Obligations.ConcurrentCallsWriteWhatSomeCallWrote := by
  intro winner buf calls
  refine ⟨fun hsmall => callWith_of_not_fits hsmall winner, fun hfits => ?_⟩
  obtain ⟨us, hran⟩ := exists_ran calls
  refine ⟨us, _, hran, callWith_of_fits hfits hran winner, overlay_length .., fun k hk =>
    ⟨fun hnone => ?_, fun hsome => ?_⟩⟩
  · rw [getElem?_overlay, writersAt_eq_nil hran hnone]
    simp only [resolve_nil, Option.map_id']
  · obtain ⟨call, u, hmem, hcovers, hwrote⟩ :=
      (mem_writersAt_iff hran k _).mp (resolve_mem (winner k) buf[k] _ (writersAt_ne_nil hran hsome))
    exact ⟨call, u, hmem, hcovers, by rw [getElem?_overlay, List.getElem?_eq_getElem hk, hwrote, Option.map_some]⟩

/-! ### Every writer may win -/

/-- The choice of winners that leaves `want` where it can: at each element, a writer of the wanted value. -/
def winnerFor (want : List Bit) (regions : List Region) (k : Nat) : Nat :=
  (writersAt regions k).idxOf (want.getD k false)

/-- U6: a written value is what its own writer leaves. -/
theorem resolve_idxOf {written : List Bit} {b : Bit} (hb : b ∈ written) (old : Bit) :
    resolve (written.idxOf b) old written = b := by
  have hlt := List.idxOf_lt_length_iff.mpr hb
  rw [resolve, Nat.mod_eq_of_lt hlt, List.getD_eq_getElem _ _ hlt, List.getElem_idxOf]

/-- Settles O49: at each covered element the writer of the wanted value is the winner. -/
theorem everyWriterOfAContestedElementMayWin : Obligations.EveryWriterOfAContestedElementMayWin := by
  intro buf want calls us hfits hran hlength hwant
  refine ⟨winnerFor want ((calls.zip us).map regionOf), ?_⟩
  rw [callWith_of_fits hfits hran]
  congr 3
  refine List.ext_getElem (by rw [overlay_length, hlength]) fun k hk hk' => ?_
  have hkbuf : k < buf.length := hlength ▸ hk'
  refine Option.some.inj ?_
  rw [← List.getElem?_eq_getElem hk, ← List.getElem?_eq_getElem hk', getElem?_overlay]
  obtain ⟨hnone, hsame⟩ | ⟨call, u, hmem, hcovers, hwrote⟩ := hwant k hkbuf
  · rw [writersAt_eq_nil hran hnone, hsame]
    simp only [resolve_nil, Option.map_id']
  · have hwritten : want.getD k false ∈ writersAt ((calls.zip us).map regionOf) k := by
      refine (mem_writersAt_iff hran k _).mpr ⟨call, u, hmem, hcovers, ?_⟩
      rw [← hwrote, List.getD_eq_getElem _ _ hk', List.getElem?_eq_getElem hk']
    rw [List.getElem?_eq_getElem hkbuf, Option.map_some, winnerFor, resolve_idxOf hwritten,
      List.getD_eq_getElem _ _ hk', List.getElem?_eq_getElem hk']

/-! ### No race where no element is shared -/

/-- Calls whose regions share no element write each element at most once. -/
theorem length_writersAt_le_one {calls : List Call} {us : List (State × List Bit)} (hran : Ran calls us)
    (hdisjoint : calls.Pairwise fun a b => ∀ k, a.covers k = true → b.covers k = false) (k : Nat) :
    (writersAt ((calls.zip us).map regionOf) k).length ≤ 1 := by
  rw [← List.map_fst_zip hran.length_eq.le, List.pairwise_map] at hdisjoint
  have hnone : (writersAt ((calls.zip us).map regionOf) k).Pairwise fun _ _ => False := by
    rw [writersAt_eq_filterMap hran, List.pairwise_filterMap]
    refine hdisjoint.imp fun {run run'} hapart b hb b' hb' => ?_
    have hcovers := (writtenBy_eq_some_iff.mp hb).1
    have hcovers' := (writtenBy_eq_some_iff.mp hb').1
    exact Bool.false_ne_true ((hapart k hcovers).symm.trans hcovers')
  match hwritten : writersAt ((calls.zip us).map regionOf) k with
  | [] | [_] => simp
  | b :: b' :: rest =>
    rw [hwritten] at hnone
    exact ((List.pairwise_cons.mp hnone).1 b' List.mem_cons_self).elim

/-- U6: where at most one call writes, there is nothing to win. -/
theorem resolve_congr_winner {written : List Bit} (hone : written.length ≤ 1) (old : Bit) (winner winner' : Nat) :
    resolve winner old written = resolve winner' old written := by
  match written with
  | [] => rfl
  | [b] => simp [resolve, Nat.mod_one]

/-- Settles O50: each element has at most one writer, so every choice of winners gives one buffer. -/
theorem disjointOutputsDoNotRace : Obligations.DisjointOutputsDoNotRace := by
  intro buf calls race winner hdisjoint
  rw [callConcurrently]
  by_cases hfits : ∀ call ∈ calls, call.offset + call.op.size ≤ buf.length
  · obtain ⟨us, hran⟩ := exists_ran calls
    rw [callWith_of_fits hfits hran, callWith_of_fits hfits hran]
    congr 3
    refine List.ext_getElem? fun k => ?_
    rw [getElem?_overlay, getElem?_overlay]
    congr 1
    funext old
    exact resolve_congr_winner (length_writersAt_le_one hran hdisjoint k) old _ _
  · have hsmall : ∃ call ∈ calls, buf.length < call.offset + call.op.size := by simpa using hfits
    rw [callWith_of_not_fits hsmall, callWith_of_not_fits hsmall]

end Sys2Proof.Machine
end
